-- ==== Sys2Proof/Word.lean ====
section
/-! DEFINITION. The words of the block: bytes and 32-bit dwords (00_scope.md R9 `W = 32`, R12: every value is unsigned). -/

namespace Sys2Proof

/-- One byte of a buffer (R13). -/
abbrev Byte := BitVec 8

/-- A dword: the word EXTRACT and INSERT act on, a Header Word, an Address (R9, R60). -/
abbrev Word := BitVec 32

/-- A byte sequence carries its own length (R13, R25). -/
abbrev Bytes := List Byte

end Sys2Proof
end

