-- ==== Sys2Proof/Config.lean ====
section
/-! DEFINITION. What the spec leaves to the implementation: the OPEN parameters of R9 as constants with no body, and the
record of the code points R10 lets a model take as configuration. The values of R24's constant table stand in
Machine/Constants.lean. -/

namespace Sys2Proof.Config

/-- OPEN (R9, D30): by how many bytes the longest `buf` of this interface exceeds the least MAX_BUF_BYTES. -/
opaque bufSurplus : Nat

/-- OPEN (R9, D30): by how many bytes the longest `data` of this interface exceeds the least MAX_DATA_BYTES. -/
opaque dataSurplus : Nat

/-- OPEN (R9, R257, D24): the time from request to response. No definition of the model reads it, as R257 demands. -/
opaque latency : Nat

/-- What stands where no byte of a buffer stands. R40: no operation ever reads it, and nothing in Lean can tell its
value, so no proof can rest on it (log entry 11). -/
opaque absentByte : Byte

/-- R9, R52: MAX_BUF_BYTES is at least 16393, a write request of Length 4095 with its tag byte. -/
def minBufBytes : Nat := 16393

/-- R9, R52: MAX_DATA_BYTES is at least 16384, the least `data` that gives PayloadTooLarge. -/
def minDataBytes : Nat := 16384

def maxBufBytes : Nat := minBufBytes + bufSurplus

def maxDataBytes : Nat := minDataBytes + dataSurplus

/-- R52: a `buf` of `n` bytes can be presented. The first test decides every length the spec itself guarantees. -/
def bufFits (n : Nat) : Bool := decide (n ≤ minBufBytes) || decide (n ≤ maxBufBytes)

/-- R52: a `data` of `n` bytes can be presented. -/
def dataFits (n : Nat) : Bool := decide (n ≤ minDataBytes) || decide (n ≤ maxDataBytes)

/-- The code points R10 lets a model take as configuration fields (K3, K4, K5). -/
structure Codes where
  fmtCpl   : BitVec 2
  typeRd   : BitVec 6
  typeWr   : BitVec 6
  typeCpl  : BitVec 6
  /-- the recognized status set -/
  statuses : List (BitVec 3)
  deriving DecidableEq, Repr

end Sys2Proof.Config
end

