-- ==== Sys2Proof/Syntax.lean ====
section
/-! DEFINITION. The operations of the block with their operands (one constructor per row of opcode_table.json, operands as
R76 lists them), the request that presents one (R25), and the pseudo-operations of the textual form (R79). -/

namespace Sys2Proof

/-- One operation with the operands it reads (R76). -/
inductive Instr where
  | extract (word : Word) (hi lo : Byte)
  | insert (word value : Word) (hi lo : Byte)
  | decWr (buf : Bytes)
  | encWr (address : Word) (data : Bytes) (byteEnable tag : Byte)
  | decRd (buf : Bytes)
  | encRd (address : Word) (tag : Byte)
  | decCpl (buf : Bytes)
  | encCpl (data : Bytes) (status : BitVec 3) (tag : Byte)
  | valFormat (word : Word) (expFmt : BitVec 2) (expType : BitVec 6)
  | valLength (length min max : Word)
  | valCapacity (buf : Bytes) (required : Word)
  | decAny (buf : Bytes)
  | reservedC
  | reservedD
  | reservedE
  | reservedF
  deriving DecidableEq, Repr

/-- A request as it stands at the interface: every field of R25's table at its width. -/
structure Request where
  op         : BitVec 4
  word       : Word
  value      : Word
  hi         : Byte
  lo         : Byte
  buf        : Bytes
  address    : Word
  data       : Bytes
  byteEnable : Byte
  tag        : Byte
  status     : BitVec 3
  expFmt     : BitVec 2
  expType    : BitVec 6
  length     : Word
  min        : Word
  max        : Word
  required   : Word
  deriving DecidableEq, Repr

/-- The operand fields of a request (R25), by name. -/
inductive ReqField where
  | word | value | hi | lo | buf | address | data | byteEnable | tag | status
  | expFmt | expType | length | min | max | required
  deriving DecidableEq, Repr

/-- The pseudo-operations of R79: one Header Word field read or replaced. -/
inductive Pseudo where
  | getFmt (word : Word)
  | getType (word : Word)
  | getTc (word : Word)
  | getBe (word : Word)
  | getLen (word : Word)
  | setFmt (word value : Word)
  | setType (word value : Word)
  | setTc (word value : Word)
  | setBe (word value : Word)
  | setLen (word value : Word)
  deriving DecidableEq, Repr

end Sys2Proof
end

