-- ==== Sys2Proof/WellFormed.lean ====
section
/-! DEFINITION. Which operations can be presented to the hardware at all (R52): every fixed-width operand is in range by
its type, so the only checks are the lengths of the two byte sequences. -/

namespace Sys2Proof

/-- R52: the byte-sequence operands are no longer than the interface takes. -/
def Instr.wellFormed : Instr → Bool
  | .extract _ _ _       => true
  | .insert _ _ _ _      => true
  | .decWr buf           => Config.bufFits buf.length
  | .encWr _ data _ _    => Config.dataFits data.length
  | .decRd buf           => Config.bufFits buf.length
  | .encRd _ _           => true
  | .decCpl buf          => Config.bufFits buf.length
  | .encCpl data _ _     => Config.dataFits data.length
  | .valFormat _ _ _     => true
  | .valLength _ _ _     => true
  | .valCapacity buf _   => Config.bufFits buf.length
  | .decAny buf          => Config.bufFits buf.length
  | .reservedC           => true
  | .reservedD           => true
  | .reservedE           => true
  | .reservedF           => true

end Sys2Proof
end

