-- ==== Sys2Proof/Decode.lean ====
section
/-! DEFINITION. Reading a request (R75, R76) and, after it, writing one. Decoding is total on every request: the sixteen
values of `op` all name an operation or a reserved row, and the only requests it turns away, by name, are those that
cannot be presented (R52). -/

namespace Sys2Proof

/-- Why a request cannot be presented (R52). -/
inductive DecodeReject where
  /-- `buf` is longer than MAX_BUF_BYTES -/
  | bufTooLong
  /-- `data` is longer than MAX_DATA_BYTES -/
  | dataTooLong
  deriving DecidableEq, Repr

/-- R75's map of `op`, and R76's choice of the operand fields it reads. Only `op` 0xF reaches the last arm. -/
def decodeFields (r : Request) : Instr :=
  match r.op.toNat with
  | 0x0 => .extract r.word r.hi r.lo
  | 0x1 => .insert r.word r.value r.hi r.lo
  | 0x2 => .decWr r.buf
  | 0x3 => .encWr r.address r.data r.byteEnable r.tag
  | 0x4 => .decRd r.buf
  | 0x5 => .encRd r.address r.tag
  | 0x6 => .decCpl r.buf
  | 0x7 => .encCpl r.data r.status r.tag
  | 0x8 => .valFormat r.word r.expFmt r.expType
  | 0x9 => .valLength r.length r.min r.max
  | 0xA => .valCapacity r.buf r.required
  | 0xB => .decAny r.buf
  | 0xC => .reservedC
  | 0xD => .reservedD
  | 0xE => .reservedE
  | _   => .reservedF

/-- The operation a request names. R52 speaks of the request, so both byte sequences are measured whichever of them the
operation reads (log entry 7). -/
def decode (r : Request) : Except DecodeReject Instr :=
  if Config.bufFits r.buf.length then
    if Config.dataFits r.data.length then .ok (decodeFields r) else .error .dataTooLong
  else .error .bufTooLong

/-- A request whose operand fields are all zero or empty. -/
def blankRequest (op : BitVec 4) : Request :=
  { op := op, word := 0, value := 0, hi := 0, lo := 0, buf := [], address := 0, data := [], byteEnable := 0, tag := 0
    status := 0, expFmt := 0, expType := 0, length := 0, min := 0, max := 0, required := 0 }

/-- The `op` value of an operation (R75). -/
def Instr.opcode : Instr → BitVec 4
  | .extract _ _ _     => 0x0
  | .insert _ _ _ _    => 0x1
  | .decWr _           => 0x2
  | .encWr _ _ _ _     => 0x3
  | .decRd _           => 0x4
  | .encRd _ _         => 0x5
  | .decCpl _          => 0x6
  | .encCpl _ _ _      => 0x7
  | .valFormat _ _ _   => 0x8
  | .valLength _ _ _   => 0x9
  | .valCapacity _ _   => 0xA
  | .decAny _          => 0xB
  | .reservedC         => 0xC
  | .reservedD         => 0xD
  | .reservedE         => 0xE
  | .reservedF         => 0xF

/-- The request that presents an operation: its operands in the fields R76 names, every field it does not read zero or
empty (R25: such a field has no effect). -/
def encode (i : Instr) : Request :=
  let z := blankRequest i.opcode
  match i with
  | .extract word hi lo                  => { z with word := word, hi := hi, lo := lo }
  | .insert word value hi lo             => { z with word := word, value := value, hi := hi, lo := lo }
  | .decWr buf                           => { z with buf := buf }
  | .encWr address data byteEnable tag   =>
      { z with address := address, data := data, byteEnable := byteEnable, tag := tag }
  | .decRd buf                           => { z with buf := buf }
  | .encRd address tag                   => { z with address := address, tag := tag }
  | .decCpl buf                          => { z with buf := buf }
  | .encCpl data status tag              => { z with data := data, status := status, tag := tag }
  | .valFormat word expFmt expType       => { z with word := word, expFmt := expFmt, expType := expType }
  | .valLength length min max            => { z with length := length, min := min, max := max }
  | .valCapacity buf required            => { z with buf := buf, required := required }
  | .decAny buf                          => { z with buf := buf }
  | .reservedC                           => z
  | .reservedD                           => z
  | .reservedE                           => z
  | .reservedF                           => z

/-- R76's column "reads", by `op`; a reserved `op` reads no other field (R77). -/
def readFields (op : BitVec 4) : List ReqField :=
  match op.toNat with
  | 0x0 => [.word, .hi, .lo]
  | 0x1 => [.word, .value, .hi, .lo]
  | 0x2 => [.buf]
  | 0x3 => [.address, .data, .byteEnable, .tag]
  | 0x4 => [.buf]
  | 0x5 => [.address, .tag]
  | 0x6 => [.buf]
  | 0x7 => [.data, .status, .tag]
  | 0x8 => [.word, .expFmt, .expType]
  | 0x9 => [.length, .min, .max]
  | 0xA => [.buf, .required]
  | 0xB => [.buf]
  | _   => []

/-- The same value in one operand field of two requests. -/
def Request.agreesOn (r r' : Request) : ReqField → Bool
  | .word       => r.word == r'.word
  | .value      => r.value == r'.value
  | .hi         => r.hi == r'.hi
  | .lo         => r.lo == r'.lo
  | .buf        => r.buf == r'.buf
  | .address    => r.address == r'.address
  | .data       => r.data == r'.data
  | .byteEnable => r.byteEnable == r'.byteEnable
  | .tag        => r.tag == r'.tag
  | .status     => r.status == r'.status
  | .expFmt     => r.expFmt == r'.expFmt
  | .expType    => r.expType == r'.expType
  | .length     => r.length == r'.length
  | .min        => r.min == r'.min
  | .max        => r.max == r'.max
  | .required   => r.required == r'.required

/-- Two requests that name one operation and agree on every field it reads (R25, D20). -/
def Request.sameReading (r r' : Request) : Bool :=
  r.op == r'.op && (readFields r.op).all (r.agreesOn r')

/-- R79: what a pseudo-operation of the textual form stands for. -/
def Pseudo.expand : Pseudo → Instr
  | .getFmt w    => .extract w 31 30
  | .getType w   => .extract w 29 24
  | .getTc w     => .extract w 23 20
  | .getBe w     => .extract w 19 12
  | .getLen w    => .extract w 11 0
  | .setFmt w v  => .insert w v 31 30
  | .setType w v => .insert w v 29 24
  | .setTc w v   => .insert w v 23 20
  | .setBe w v   => .insert w v 19 12
  | .setLen w v  => .insert w v 11 0

/-- The request whose bits opcode_table.json numbers, given `nbits` of them: `op` is bits 3:0, the table gives no operand
field a bit, so every operand is zero or empty, and the table's mask 0xF reads no bit above bit 3 (log entry 15). -/
def tableRequest (nbits w : Nat) : Request := blankRequest (BitVec.ofNat 4 (w % 2 ^ nbits))

/-- What the decoder reads from a row of opcode_table.json. -/
def decodeTableWord (nbits w : Nat) : Option Instr :=
  match decode (tableRequest nbits w) with
  | .ok i    => some i
  | .error _ => none

end Sys2Proof
end

