-- ==== Sys2Proof/Machine/State.lean ====
section
/-! DEFINITION. The state of the machine. The block itself holds nothing between operations (R20 to R24, R32): what State
holds is its interface: the requests and resets the environment has presented, the response, and the caller's output
buffer. Also the response (R26), the decoded records (R27), the error kinds (R220), and the two ways a step can stop. -/

namespace Sys2Proof.Machine

/-! ## Responses -/

/-- The six error kinds of R220. Each ends an operation in a next state whose response is that kind alone. -/
inductive ErrorKind where
  | malformedHeader
  | truncatedBuffer
  | invalidLength
  | invalidPayloadLength
  | payloadTooLarge
  | invalidStatus
  deriving DecidableEq, Repr

/-- R27, first row. `payload` has exactly `4 * length` bytes; `tag` is `none` where the packet has no tag byte (R63). -/
structure WriteRequest where
  fmt     : BitVec 2
  type    : BitVec 6
  tc      : BitVec 4
  be      : Byte
  length  : BitVec 12
  address : Word
  tag     : Option Byte
  payload : Bytes
  deriving DecidableEq, Repr

/-- R27, second row; `length` is always 1. -/
structure ReadRequest where
  fmt     : BitVec 2
  type    : BitVec 6
  tc      : BitVec 4
  be      : Byte
  length  : BitVec 12
  address : Word
  tag     : Byte
  deriving DecidableEq, Repr

/-- R27, third row. -/
structure Completion where
  fmt     : BitVec 2
  type    : BitVec 6
  tc      : BitVec 4
  be      : Byte
  length  : BitVec 12
  status  : BitVec 3
  tag     : Byte
  payload : Bytes
  deriving DecidableEq, Repr

/-- The response field `rec` (R26). -/
inductive Record where
  | write (r : WriteRequest)
  | read (r : ReadRequest)
  | completion (r : Completion)
  deriving DecidableEq, Repr

/-- The response field `kind` (R26); its numbers are `PacketKind.code`. -/
inductive PacketKind where
  | readRequest
  | writeRequest
  | completion
  deriving DecidableEq, Repr

/-- What a response carries with code OK (R26), one constructor for each set of fields that occur together. -/
inductive Result where
  | word (result : Word)
  | flag (flag : Bool)
  | record (rec : Record)
  | tagged (kind : PacketKind) (rec : Record)
  | packet (out : Bytes) (olen : Nat)
  deriving DecidableEq, Repr

/-- A response is a result or exactly one error kind, with no other field (R26, R221). -/
inductive Response where
  | ok (r : Result)
  | err (e : ErrorKind)
  deriving DecidableEq, Repr

/-! ## The environment's side of the interface -/

/-- The bytes known of the caller's output buffer, offset and byte, offsets strictly rising. An offset that is not listed
has no known value: the buffer "holds whatever it held before the request" (R255, log entry 6). -/
abbrev Memory := List Host.Cell

/-- A request with what the caller supplies beside its fields: the output buffer of this call (R28, R46), and what the
model is told about R51. -/
structure Presented where
  req      : Request
  /-- OUT_CAP: how many bytes the output buffer holds; `none` leaves it unbounded (R46). -/
  outCap   : Option Nat
  /-- the output buffer before the request -/
  outBuf   : Memory
  /-- told that `buf` or `data` changes before the response (R51) -/
  unstable : Bool
  /-- told that `data` shares storage with the output buffer (R51) -/
  aliased  : Bool
  deriving DecidableEq, Repr

/-- What the environment does to the block. -/
inductive Input where
  /-- a request is presented -/
  | request (p : Presented)
  /-- reset, while the given request is in flight, or while none is (R251, R252) -/
  | reset (inFlight : Option Presented)
  deriving DecidableEq, Repr

/-! ## The state -/

/-- Every field belongs to the interface; the block's own state is the unit value (R20, log entry 1). -/
structure State where
  /-- presented and not yet taken, oldest first (R54) -/
  inputs   : List Input
  /-- the response of the operation performed last, none before any and after reset (R251) -/
  response : Option Response
  /-- the output buffer of the request taken last (R45) -/
  outBuf   : Memory
  /-- the capacity of that buffer (R46) -/
  outCap   : Option Nat
  deriving DecidableEq, Repr

/-! ## Stops -/

/-- The two response codes that R223 tells a model to treat as faults. -/
inductive Fault where
  /-- Raised by EXTRACT and INSERT when `hi < lo` or `hi > 31`: code FIELD_RANGE (R102, R223, K1). Safe: the block would
  answer code 7 and go on, the model stops, so nothing can be proved of what follows. -/
  | fieldRange
  /-- Raised by the reserved `op` values 0xC to 0xF: code ILLEGAL_OP (R77, R223, K9). Safe, for the same reason. -/
  | illegalOp
  deriving DecidableEq, Repr

/-- Requests the model gives no meaning: an instruction without a meaning, and the caller preconditions of R230. -/
inductive Refusal where
  /-- Raised by an arm of exec that has no meaning yet; no arm of this model raises it. Safe. -/
  | notModelled (mnemonic : String)
  /-- Raised by ENC_WR, ENC_RD and ENC_CPL when the output is longer than OUT_CAP (R46, R230, K10). Safe. -/
  | outputTooLong
  /-- Raised by the step for a `buf` longer than MAX_BUF_BYTES (R52, R230, K12). Safe. -/
  | bufTooLong
  /-- Raised by the step for a `data` longer than MAX_DATA_BYTES (R52, R230, K12). Safe. -/
  | dataTooLong
  /-- Raised by the step when told that `buf` or `data` changes before the response (R51, R230, K11). Safe. -/
  | unstableBuffers
  /-- Raised by the step when told that `data` shares storage with the output buffer (R51, R230, K11). Safe. -/
  | aliasedBuffers
  deriving DecidableEq, Repr

/-- R250, R251: reset sets nothing, the block is ready and has no response pending. No request waits and no output buffer
is known, until the environment presents one (log entries 2, 5 and 6). -/
def State.reset : State := { inputs := [], response := none, outBuf := [], outCap := none }

end Sys2Proof.Machine
end

