-- ==== Sys2Proof/Machine/Constants.lean ====
section
/-! DEFINITION. The table of hardwired constants of R24 that no request can change, and the numbers of R222 and R26. -/

namespace Sys2Proof.Machine

/-- R9 `HEADER_SIZE`: bytes before the payload, every packet type. -/
def headerSize : Nat := 12

/-- R9 `READ_SIZE`: a read request is 12 bytes whatever its Length says (R141). -/
def readSize : Nat := 12

/-- R9 `MAX_LEN`: the largest value of the 12-bit Length field. -/
def maxLen : Nat := 4095

/-- R9 `FMT_RD`. -/
def fmtRd : BitVec 2 := 0b00

/-- R9 `FMT_WR`. -/
def fmtWr : BitVec 2 := 0b01

/-- R9 `ENC_TC`: the Traffic Class every encoder writes (R72). -/
def encTc : BitVec 4 := 0

/-- R9 `ENC_BE_RD` (R144). -/
def encBeRd : Byte := 0x00

/-- R9 `ENC_BE_CPL` (D10). -/
def encBeCpl : Byte := 0x00

/-- R68 `STATUS_SC`, success. -/
def statusSc : BitVec 3 := 0

/-- R68 `STATUS_UR`, unsupported request. -/
def statusUr : BitVec 3 := 1

/-- R68 `STATUS_CRS`, configuration request retry status. -/
def statusCrs : BitVec 3 := 2

/-- R68 `STATUS_CA`, completer abort. -/
def statusCa : BitVec 3 := 4

/-- The configuration of this spec: R9's values of the code points that R10 lets vary (R67, R68, log entry 12). -/
def codes : Config.Codes :=
  { fmtCpl := 0b10, typeRd := 0x00, typeWr := 0x00, typeCpl := 0x0A
    statuses := [statusSc, statusUr, statusCrs, statusCa] }

/-- R10: what every configuration must satisfy. That each value fits its field is the type of the field, and that the
recognized set is not empty follows from STATUS_SC being in it. -/
def codesValid (c : Config.Codes) : Bool :=
  c.fmtCpl != fmtRd && c.fmtCpl != fmtWr && c.statuses.contains statusSc

/-- R222: the response code of an error kind. -/
def ErrorKind.code : ErrorKind → BitVec 4
  | .malformedHeader      => 1
  | .truncatedBuffer      => 2
  | .invalidLength        => 3
  | .invalidPayloadLength => 4
  | .payloadTooLarge      => 5
  | .invalidStatus        => 6

/-- R222: the response code the hardware gives where the model faults. -/
def Fault.code : Fault → BitVec 4
  | .fieldRange => 7
  | .illegalOp  => 8

/-- R26: the 2-bit `kind` of DEC_ANY. -/
def PacketKind.code : PacketKind → BitVec 2
  | .readRequest  => 0
  | .writeRequest => 1
  | .completion   => 2

/-! The fields of a response as R26's table gives them: each is present exactly where the table says. -/

def Response.code : Response → BitVec 4
  | .ok _  => 0
  | .err e => e.code

def Response.result : Response → Option Word
  | .ok (.word w) => some w
  | _             => none

def Response.flag : Response → Option Bool
  | .ok (.flag b) => some b
  | _             => none

def Response.kind : Response → Option (BitVec 2)
  | .ok (.tagged k _) => some k.code
  | _                 => none

def Response.record : Response → Option Record
  | .ok (.record r)   => some r
  | .ok (.tagged _ r) => some r
  | _                 => none

def Response.out : Response → Option Bytes
  | .ok (.packet out _) => some out
  | _                   => none

def Response.olen : Response → Option Nat
  | .ok (.packet _ n) => some n
  | _                 => none

end Sys2Proof.Machine
end

