-- ==== Sys2Proof/Machine/Operands.lean ====
section
/-! DEFINITION. How operands are read and written: bytes and little-endian dwords of a byte sequence (R13, R41, R42, R44),
and bit fields of a word (R11, R100, R101), with the fixed fields of the packet formats (R60 to R63). -/

namespace Sys2Proof.Machine

/-! ## Byte sequences -/

/-- `s[i]`. R40: asked only where `i < len(s)`; elsewhere it is a value nothing can be proved of (log entry 11). -/
def byteAt (s : Bytes) (i : Nat) : Byte := s.getD i Config.absentByte

/-- `DW(s, k)`, little-endian (R41). -/
def dw (s : Bytes) (k : Nat) : Word :=
  byteAt s (4 * k + 3) ++ byteAt s (4 * k + 2) ++ byteAt s (4 * k + 1) ++ byteAt s (4 * k)

/-- `le32(v)` (R13, R42). -/
def le32 (v : Word) : Bytes :=
  [v.extractLsb' 0 8, v.extractLsb' 8 8, v.extractLsb' 16 8, v.extractLsb' 24 8]

/-- `s[a ..< b]` (R13). -/
def slice (s : Bytes) (a b : Nat) : Bytes := (s.take b).drop a

/-! ## Bit fields -/

/-- The precondition of EXTRACT and INSERT (R102): `lo <= hi <= W - 1`. -/
def fieldInRange (hi lo : Nat) : Bool := decide (lo ≤ hi) && decide (hi ≤ 31)

/-- The mask of a field of `n` bits, `2^n - 1` on naturals (R100). -/
def fieldMask (hi lo : Nat) : Word := BitVec.ofNat 32 (2 ^ (hi - lo + 1) - 1)

/-- R100 under its precondition: `word[hi:lo]`, right-justified. -/
def extractField (word : Word) (hi lo : Nat) : Word := (word >>> lo) &&& fieldMask hi lo

/-- R101 under its precondition: `word` with bits `hi:lo` replaced by the low bits of `value`. -/
def insertField (word value : Word) (hi lo : Nat) : Word :=
  (word &&& ~~~(fieldMask hi lo <<< lo)) ||| ((value &&& fieldMask hi lo) <<< lo)

/-! ## The fields of a packet (R60 to R63), each one EXTRACT at fixed bounds (R107) -/

def fmtOf (w0 : Word) : BitVec 2 := (extractField w0 31 30).setWidth 2

def typeOf (w0 : Word) : BitVec 6 := (extractField w0 29 24).setWidth 6

def tcOf (w0 : Word) : BitVec 4 := (extractField w0 23 20).setWidth 4

def beOf (w0 : Word) : Byte := (extractField w0 19 12).setWidth 8

def lengthOf (w0 : Word) : BitVec 12 := (extractField w0 11 0).setWidth 12

/-- R61: a completion's Status, DW1 bits 2:0. -/
def statusOf (w1 : Word) : BitVec 3 := (extractField w1 2 0).setWidth 3

/-- R62: the Tag of a read request or completion, DW2 bits 7:0. -/
def tagOf (w2 : Word) : Byte := (extractField w2 7 0).setWidth 8

/-- R63: Tag Present, DW2 bit 0 of a write request, as the number of tag bytes. -/
def tagPresent (w2 : Word) : Nat := (extractField w2 0 0).toNat

/-- The Header Word the encoders compose by repeated INSERT from a fresh word (R123, R142, R162); `length` is a natural
number (R74) and fits 12 bits wherever an encoder gets this far. -/
def headerWord (fmt : BitVec 2) (type : BitVec 6) (tc : BitVec 4) (be : Byte) (length : Nat) : Word :=
  let w0 : Word := 0
  let w0 := insertField w0 (fmt.setWidth 32) 31 30
  let w0 := insertField w0 (type.setWidth 32) 29 24
  let w0 := insertField w0 (tc.setWidth 32) 23 20
  let w0 := insertField w0 (be.setWidth 32) 19 12
  insertField w0 (BitVec.ofNat 32 length) 11 0

end Sys2Proof.Machine
end

