-- ==== Sys2Proof/Machine/Flags.lean ====
section
/-! DEFINITION. The three validator predicates (R180 to R182) and the status test (R68): the block has no retained flags
(R23), and these give the response's `flag` and select the error kinds (R183, R184). Lengths are natural numbers (R74). -/

namespace Sys2Proof.Machine

/-- `format_matches` (R180): exact equality on the 2-bit and 6-bit fields. -/
def formatMatches (word : Word) (expFmt : BitVec 2) (expType : BitVec 6) : Bool :=
  fmtOf word == expFmt && typeOf word == expType

/-- `length_in_range` (R181): both bounds included. -/
def lengthInRange (length min max : Nat) : Bool := decide (min ≤ length) && decide (length ≤ max)

/-- `buffer_has_capacity` (R182). -/
def bufferHasCapacity (buf : Bytes) (required : Nat) : Bool := decide (required ≤ buf.length)

/-- Whether a status is in the recognized set (R68). -/
def statusRecognized (c : Config.Codes) (status : BitVec 3) : Bool := c.statuses.contains status

end Sys2Proof.Machine
end

