-- ==== Sys2Proof/Machine/Ops.lean ====
section
/-! DEFINITION. The operations the meanings share: the output buffer (R45), the ways an operation ends (R221, R223, R227),
and taking the next input (R22, R51, R52, R54, R252). -/

namespace Sys2Proof.Machine

/-! ## The output buffer -/

/-- Offsets strictly rising, so that equal buffers are equal lists. -/
def Memory.wf : Memory → Bool
  | []                   => true
  | [_]                  => true
  | (a, _) :: (b, y) :: m => decide (a < b) && Memory.wf ((b, y) :: m)

/-- No listed offset lies beyond the capacity (R46); an unbounded buffer has no end. -/
def Memory.within (cap : Option Nat) (m : Memory) : Bool :=
  match cap with
  | none   => true
  | some n => m.all fun c => decide (c.1 < n)

/-- One byte of the buffer; `none` where nothing is known of it. -/
def Memory.read (m : Memory) (a : Nat) : Option Byte := m.lookup a

/-- `bytes` at consecutive offsets from `a`. -/
def cellsFrom (a : Nat) : Bytes → Memory
  | []      => []
  | b :: bs => (a, b) :: cellsFrom (a + 1) bs

/-- R45: bytes `0 .. olen - 1` written, no other byte touched. -/
def Memory.store (out : Bytes) (m : Memory) : Memory :=
  cellsFrom 0 out ++ m.filter fun c => decide (out.length ≤ c.1)

/-- R46: `n` bytes fit the output buffer. -/
def capacityAllows (cap : Option Nat) (n : Nat) : Bool :=
  match cap with
  | none   => true
  | some k => decide (n ≤ k)

/-! ## How an operation ends -/

/-- The response given, nothing else changed. -/
def State.answered (s : State) (r : Response) : State := { s with response := some r }

/-- The response given and the packet in the output buffer, as one (R45). -/
def State.delivered (s : State) (out : Bytes) (olen : Nat) : State :=
  { s with response := some (.ok (.packet out olen)), outBuf := Memory.store out s.outBuf }

/-- `return v` (R14, R26): code OK with its result, and nothing else changes. -/
def reply (r : Result) (s : State) : Host.Outcome State Fault Refusal := .next (s.answered (.ok r))

/-- `raise E()` (R221, R227): the response is the error kind alone; no output byte, no record, no state. This is what the
block has in place of taking an exception; R228: there is no handler and nothing to return from. -/
def raise (e : ErrorKind) (s : State) : Host.Outcome State Fault Refusal := .next (s.answered (.err e))

/-- The end of a decoder: its record, or its error kind (R221). -/
def respond (r : Except ErrorKind Result) (s : State) : Host.Outcome State Fault Refusal :=
  match r with
  | .ok v    => reply v s
  | .error e => raise e s

/-- `return (out, olen)` (R45): the output buffer and the response change as one; R46: refused where the output is longer
than the buffer. -/
def deliver (out : Bytes) (olen : Nat) (s : State) : Host.Outcome State Fault Refusal :=
  if capacityAllows s.outCap out.length then .next (s.delivered out olen) else .refused .outputTooLong

/-- The end of an encoder: its packet, or its error kind with no byte written (R45). -/
def emit (r : Except ErrorKind (Bytes × Nat)) (s : State) : Host.Outcome State Fault Refusal :=
  match r with
  | .ok (out, olen) => deliver out olen s
  | .error e        => raise e s

/-- R223: a FIELD_RANGE or ILLEGAL_OP response is a fault of the model. -/
def violate (f : Fault) (_ : State) : Host.Outcome State Fault Refusal := .fault f

/-! ## Taking an input -/

/-- The operation of a request that may be performed, or why the model refuses it before any operation begins (R230): what
it is told of R51 first, then the size limits of R52 (log entry 10). -/
def admission (p : Presented) : Except Refusal Instr :=
  if p.unstable then .error .unstableBuffers
  else if p.aliased then .error .aliasedBuffers
  else match decode p.req with
    | .ok i               => .ok i
    | .error .bufTooLong  => .error .bufTooLong
    | .error .dataTooLong => .error .dataTooLong

/-- The state in which a request's operation runs: the request taken, no response yet, and its own output buffer in place.
Its operands are a snapshot, carried by the instruction (R49). -/
def accept (p : Presented) (rest : List Input) : State :=
  { inputs := rest, response := none, outBuf := p.outBuf, outCap := p.outCap }

/-- R250 to R252: reset sets nothing and leaves no response pending; a request in flight is discarded, and its output
buffer is as it was. Requests not yet taken wait on. DESIGN CHOICE: the request in flight is discarded without `admission`,
so one that breaks R51 or R52 is dropped by the reset and not refused, on which R230 and R252 leave no order (log entry 9). -/
def takeReset (inFlight : Option Presented) (rest : List Input) (s : State) : State :=
  match inFlight with
  | some p => accept p rest
  | none   => { s with inputs := rest, response := none }

/-- What a step finds to do. -/
inductive Fetched where
  | idle
  | reset (s : State)
  | run (i : Instr) (s : State)
  | refuse (r : Refusal)
  deriving DecidableEq, Repr

/-- Take the oldest input (R54). -/
def fetch (s : State) : Fetched :=
  match s.inputs with
  | []                      => .idle
  | .reset inFlight :: rest => .reset (takeReset inFlight rest s)
  | .request p :: rest      =>
    match admission p with
    | .ok i    => .run i (accept p rest)
    | .error r => .refuse r

/-- A request with an unbounded output buffer of which nothing is known, and no word of a broken precondition. -/
def plainly (r : Request) : Presented :=
  { req := r, outCap := none, outBuf := [], unstable := false, aliased := false }

end Sys2Proof.Machine
end

