-- ==== Sys2Proof/Machine/BitField.lean ====
section
/-! DEFINITION. The Bit-Field Codec: EXTRACT and INSERT (40_bitfield.md). -/

namespace Sys2Proof.Machine

/-- EXTRACT (R100, R102). -/
def execExtract (word : Word) (hi lo : Byte) (s : State) : Host.Outcome State Fault Refusal :=
  if fieldInRange hi.toNat lo.toNat then reply (.word (extractField word hi.toNat lo.toNat)) s
  else violate .fieldRange s

/-- INSERT (R101, R102). -/
def execInsert (word value : Word) (hi lo : Byte) (s : State) : Host.Outcome State Fault Refusal :=
  if fieldInRange hi.toNat lo.toNat then reply (.word (insertField word value hi.toNat lo.toNat)) s
  else violate .fieldRange s

end Sys2Proof.Machine
end

