-- ==== Sys2Proof/Machine/Completion.lean ====
section
/-! DEFINITION. The Completion Codec: DEC_CPL and ENC_CPL (43_completion.md). -/

namespace Sys2Proof.Machine

/-- R160: the checks in the order R225 fixes, then the record. The Length check is the spec's and never fails (R161). -/
def decodeCompletion (c : Config.Codes) (buf : Bytes) : Except ErrorKind Completion :=
  if !bufferHasCapacity buf headerSize then .error .truncatedBuffer else
  let w0 := dw buf 0
  if !formatMatches w0 c.fmtCpl c.typeCpl then .error .malformedHeader else
  let len := (lengthOf w0).toNat
  if !lengthInRange len 0 maxLen then .error .invalidLength else
  let st := statusOf (dw buf 1)
  if !statusRecognized c st then .error .invalidStatus else
  if !bufferHasCapacity buf (headerSize + 4 * len) then .error .truncatedBuffer else
  .ok
    { fmt := fmtOf w0, type := typeOf w0, tc := tcOf w0, be := beOf w0, length := lengthOf w0
      status := st, tag := tagOf (dw buf 2)
      payload := slice buf headerSize (headerSize + 4 * len) }

/-- R162 to R164: the packet and its size, or the first error of R226. -/
def encodeCompletion (c : Config.Codes) (data : Bytes) (status : BitVec 3) (tag : Byte) :
    Except ErrorKind (Bytes × Nat) :=
  let n := data.length
  if n % 4 ≠ 0 then .error .invalidPayloadLength else
  let len := n / 4
  if !lengthInRange len 0 maxLen then .error .payloadTooLarge else
  if !statusRecognized c status then .error .invalidStatus else
  let w0 := headerWord c.fmtCpl c.typeCpl encTc encBeCpl len
  .ok (le32 w0 ++ le32 (status.setWidth 32) ++ le32 (tag.setWidth 32) ++ data, 12 + n)

/-- DEC_CPL (R160). -/
def execDecCpl (buf : Bytes) (s : State) : Host.Outcome State Fault Refusal :=
  respond ((decodeCompletion codes buf).map fun r => .record (.completion r)) s

/-- ENC_CPL (R162). -/
def execEncCpl (data : Bytes) (status : BitVec 3) (tag : Byte) (s : State) : Host.Outcome State Fault Refusal :=
  emit (encodeCompletion codes data status tag) s

end Sys2Proof.Machine
end

