-- ==== Sys2Proof/Machine/ReadRequest.lean ====
section
/-! DEFINITION. The Read-Request Codec: DEC_RD and ENC_RD (42_read_request.md). -/

namespace Sys2Proof.Machine

/-- R140, R141: the checks in the order R225 fixes, then the record. -/
def decodeRead (c : Config.Codes) (buf : Bytes) : Except ErrorKind ReadRequest :=
  if !bufferHasCapacity buf readSize then .error .truncatedBuffer else
  let w0 := dw buf 0
  if !formatMatches w0 fmtRd c.typeRd then .error .malformedHeader else
  if !lengthInRange (lengthOf w0).toNat 1 1 then .error .invalidLength else
  .ok
    { fmt := fmtOf w0, type := typeOf w0, tc := tcOf w0, be := beOf w0, length := 1
      address := dw buf 1, tag := tagOf (dw buf 2) }

/-- R142, R144: Length hard-coded to 1. It has no error path (R143). -/
def encodeRead (c : Config.Codes) (address : Word) (tag : Byte) : Bytes × Nat :=
  let w0 := headerWord fmtRd c.typeRd encTc encBeRd 1
  (le32 w0 ++ le32 address ++ le32 (tag.setWidth 32), 12)

/-- DEC_RD (R140). -/
def execDecRd (buf : Bytes) (s : State) : Host.Outcome State Fault Refusal :=
  respond ((decodeRead codes buf).map fun r => .record (.read r)) s

/-- ENC_RD (R142). -/
def execEncRd (address : Word) (tag : Byte) (s : State) : Host.Outcome State Fault Refusal :=
  emit (.ok (encodeRead codes address tag)) s

end Sys2Proof.Machine
end

