-- ==== Sys2Proof/Machine/WriteRequest.lean ====
section
/-! DEFINITION. The Write-Request Codec: DEC_WR and ENC_WR (41_write_request.md). -/

namespace Sys2Proof.Machine

/-- R120, R121: the checks in the order R225 fixes, then the record. -/
def decodeWrite (c : Config.Codes) (buf : Bytes) : Except ErrorKind WriteRequest :=
  if !bufferHasCapacity buf headerSize then .error .truncatedBuffer else
  let w0 := dw buf 0
  if !formatMatches w0 fmtWr c.typeWr then .error .malformedHeader else
  let len := (lengthOf w0).toNat
  if !lengthInRange len 1 maxLen then .error .invalidLength else
  let tp := tagPresent (dw buf 2)
  if !bufferHasCapacity buf (headerSize + 4 * len + tp) then .error .truncatedBuffer else
  .ok
    { fmt := fmtOf w0, type := typeOf w0, tc := tcOf w0, be := beOf w0, length := lengthOf w0
      address := dw buf 1
      tag := if tp = 1 then some (byteAt buf (headerSize + 4 * len)) else none
      payload := slice buf headerSize (headerSize + 4 * len) }

/-- R123, R124: the packet and its size, or the first error of R226. -/
def encodeWrite (c : Config.Codes) (address : Word) (data : Bytes) (byteEnable tag : Byte) :
    Except ErrorKind (Bytes × Nat) :=
  let n := data.length
  if n = 0 ∨ n % 4 ≠ 0 then .error .invalidPayloadLength else
  let len := n / 4
  if !lengthInRange len 1 maxLen then .error .payloadTooLarge else
  let w0 := headerWord fmtWr c.typeWr encTc byteEnable len
  .ok (le32 w0 ++ le32 address ++ le32 0x00000001 ++ data ++ [tag], 13 + n)

/-- DEC_WR (R120). -/
def execDecWr (buf : Bytes) (s : State) : Host.Outcome State Fault Refusal :=
  respond ((decodeWrite codes buf).map fun r => .record (.write r)) s

/-- ENC_WR (R123). -/
def execEncWr (address : Word) (data : Bytes) (byteEnable tag : Byte) (s : State) :
    Host.Outcome State Fault Refusal :=
  emit (encodeWrite codes address data byteEnable tag) s

end Sys2Proof.Machine
end

