-- ==== Sys2Proof/Machine/DecodeAny.lean ====
section
/-! DEFINITION. The dispatch decoder DEC_ANY (45_dispatch.md). -/

namespace Sys2Proof.Machine

/-- R200: Format alone picks the decoder, which then makes its own checks. A Format that names no packet type (R67) is a
malformed header. -/
def decodeAny (c : Config.Codes) (buf : Bytes) : Except ErrorKind (PacketKind × Record) :=
  if !bufferHasCapacity buf headerSize then .error .truncatedBuffer else
  let f := fmtOf (dw buf 0)
  if f = fmtRd then (decodeRead c buf).map fun r => (.readRequest, .read r)
  else if f = fmtWr then (decodeWrite c buf).map fun r => (.writeRequest, .write r)
  else if f = c.fmtCpl then (decodeCompletion c buf).map fun r => (.completion, .completion r)
  else .error .malformedHeader

/-- DEC_ANY (R200). -/
def execDecAny (buf : Bytes) (s : State) : Host.Outcome State Fault Refusal :=
  respond ((decodeAny codes buf).map fun kr => .tagged kr.1 kr.2) s

end Sys2Proof.Machine
end

