-- ==== Sys2Proof/Machine/Reserved.lean ====
section
/-! DEFINITION. The reserved `op` values (R77): each reads no other field, produces no result, writes no output, and its
ILLEGAL_OP response is a fault of the model (R223, K9). -/

namespace Sys2Proof.Machine

/-- `op` 0xC (R77). -/
def execReservedC (s : State) : Host.Outcome State Fault Refusal := violate .illegalOp s

/-- `op` 0xD (R77). -/
def execReservedD (s : State) : Host.Outcome State Fault Refusal := violate .illegalOp s

/-- `op` 0xE (R77). -/
def execReservedE (s : State) : Host.Outcome State Fault Refusal := violate .illegalOp s

/-- `op` 0xF (R77). -/
def execReservedF (s : State) : Host.Outcome State Fault Refusal := violate .illegalOp s

end Sys2Proof.Machine
end

