-- ==== Sys2Proof/Machine/Validator.lean ====
section
/-! DEFINITION. The Validator as requests of their own: VAL_FORMAT, VAL_LENGTH, VAL_CAPACITY (44_validator.md). -/

namespace Sys2Proof.Machine

/-- VAL_FORMAT (R180). -/
def execValFormat (word : Word) (expFmt : BitVec 2) (expType : BitVec 6) (s : State) :
    Host.Outcome State Fault Refusal :=
  reply (.flag (formatMatches word expFmt expType)) s

/-- VAL_LENGTH (R181). -/
def execValLength (length min max : Word) (s : State) : Host.Outcome State Fault Refusal :=
  reply (.flag (lengthInRange length.toNat min.toNat max.toNat)) s

/-- VAL_CAPACITY (R182): only the length of `buf` is read. -/
def execValCapacity (buf : Bytes) (required : Word) (s : State) : Host.Outcome State Fault Refusal :=
  reply (.flag (bufferHasCapacity buf required.toNat)) s

end Sys2Proof.Machine
end

