-- ==== Sys2Proof/Machine/Dispatch.lean ====
section
/-! DEFINITION. One arm per operation of R75, each a direct call of its meaning. -/

namespace Sys2Proof.Machine

def exec (i : Instr) (s : State) : Host.Outcome State Fault Refusal :=
  match i with
  | .extract word hi lo => Sys2Proof.Machine.execExtract word hi lo s
  | .insert word value hi lo => Sys2Proof.Machine.execInsert word value hi lo s
  | .decWr buf => Sys2Proof.Machine.execDecWr buf s
  | .encWr address data byteEnable tag => Sys2Proof.Machine.execEncWr address data byteEnable tag s
  | .decRd buf => Sys2Proof.Machine.execDecRd buf s
  | .encRd address tag => Sys2Proof.Machine.execEncRd address tag s
  | .decCpl buf => Sys2Proof.Machine.execDecCpl buf s
  | .encCpl data status tag => Sys2Proof.Machine.execEncCpl data status tag s
  | .valFormat word expFmt expType => Sys2Proof.Machine.execValFormat word expFmt expType s
  | .valLength length min max => Sys2Proof.Machine.execValLength length min max s
  | .valCapacity buf required => Sys2Proof.Machine.execValCapacity buf required s
  | .decAny buf => Sys2Proof.Machine.execDecAny buf s
  | .reservedC => Sys2Proof.Machine.execReservedC s
  | .reservedD => Sys2Proof.Machine.execReservedD s
  | .reservedE => Sys2Proof.Machine.execReservedE s
  | .reservedF => Sys2Proof.Machine.execReservedF s

end Sys2Proof.Machine
end

