-- ==== Sys2Proof/Machine/Step.lean ====
section
/-! DEFINITION. One step: the oldest input taken and, where it is an admissible request, its whole operation performed
(R22, R32, R54). -/

namespace Sys2Proof.Machine

/-- With no input the block waits and nothing changes (R251). -/
def step (s : State) : Host.Outcome State Fault Refusal :=
  match fetch s with
  | .idle     => .next s
  | .reset s' => .next s'
  | .run i s' => exec i s'
  | .refuse r => .refused r

/-- The state in which the request that opcode_table.json numbers is the next to be taken: presented ahead of whatever else
waits, with an unbounded output buffer (log entry 3). -/
def State.withFetchWord (s : State) (nbits w : Nat) : State :=
  { s with inputs := .request (plainly (tableRequest nbits w)) :: s.inputs }

end Sys2Proof.Machine
end

