-- ==== Sys2Proof/Machine/Text.lean ====
section
/-! DEFINITION. The textual form of requests and responses (R78) with its pseudo-operations (R79). Notation only: the
machine never reads it (D29). Text is a list of characters; where R78 leaves the writer a choice (the base of a number, its
leading zeros) it writes as the tables of 95_test_vectors.md do (log entry 16). -/

namespace Sys2Proof.Machine

abbrev Text := List Char

/-! ## Numbers and byte sequences -/

def hexDigits : Text := "0123456789ABCDEF".toList

/-- The value of a digit in either case; `none` for a character that is no hexadecimal digit. -/
def digitValue (ch : Char) : Option Nat :=
  if ch.isDigit then some (ch.toNat - 48)
  else if 65 ≤ ch.toNat ∧ ch.toNat ≤ 70 then some (ch.toNat - 55)
  else if 97 ≤ ch.toNat ∧ ch.toNat ≤ 102 then some (ch.toNat - 87)
  else none

/-- Digits of one base after those already read. -/
def readDigits (base : Nat) : Nat → Text → Option Nat
  | n, []      => some n
  | n, ch :: t =>
    match digitValue ch with
    | some d => if d < base then readDigits base (base * n + d) t else none
    | none   => none

/-- R78: decimal, or hexadecimal after `0x`. -/
def readNumber : Text → Option Nat
  | '0' :: 'x' :: ch :: t => readDigits 16 0 (ch :: t)
  | ch :: t               => readDigits 10 0 (ch :: t)
  | []                    => none

/-- A number that fits `w` bits. -/
def readBits (w : Nat) (t : Text) : Option (BitVec w) :=
  match readNumber t with
  | some n => if n < 2 ^ w then some (BitVec.ofNat w n) else none
  | none   => none

/-- `k` hexadecimal digits, most significant first. -/
def hexText : Nat → Nat → Text
  | 0, _     => []
  | k + 1, n => hexText k (n / 16) ++ [hexDigits.getD (n % 16) '0']

/-- Decimal digits of a number of at most `k` digits, no leading zero. -/
def decimalText : Nat → Nat → Text
  | 0, _     => []
  | k + 1, n => (if n < 10 then [] else decimalText k (n / 10)) ++ [hexDigits.getD (n % 10) '0']

/-- `0x` and as many digits as the width takes. -/
def bitsText {w : Nat} (v : BitVec w) : Text := '0' :: 'x' :: hexText ((w + 3) / 4) v.toNat

def numberText (n : Nat) : Text := decimalText 20 n

/-- R78: hexadecimal bytes in brackets, first byte first. -/
def bytesText (s : Bytes) : Text :=
  ['['] ++ ((s.map fun b => hexText 2 b.toNat).intersperse [' ']).flatten ++ [']']

/-- The pieces of a text between the occurrences of one character. -/
def pieces (sep : Char) : Text → List Text
  | []      => [[]]
  | ch :: t =>
    if ch = sep then [] :: pieces sep t
    else match pieces sep t with
      | p :: ps => (ch :: p) :: ps
      | []      => [[ch]]

def trimmed (t : Text) : Text := ((t.dropWhile (· = ' ')).reverse.dropWhile (· = ' ')).reverse

/-- Every element, or nothing where one is missing. -/
def allSome {α : Type} : List (Option α) → Option (List α)
  | []           => some []
  | none :: _    => none
  | some a :: xs => (allSome xs).map (a :: ·)

/-- Two hexadecimal digits. -/
def readByte (t : Text) : Option Byte :=
  if t.length = 2 then (readDigits 16 0 t).map (BitVec.ofNat 8) else none

/-- R78: the reading of `bytesText`. -/
def readBytes (t : Text) : Option Bytes :=
  match t.head?, t.getLast? with
  | some '[', some ']' =>
    let inner := trimmed (t.tail.dropLast)
    if inner = [] then some [] else allSome ((pieces ' ' inner).map readByte)
  | _, _ => none

/-! ## Requests -/

/-- The mnemonics of R75, in the order of `op`; the reserved values have none. -/
def mnemonics : List Text :=
  ["EXTRACT".toList, "INSERT".toList, "DEC_WR".toList, "ENC_WR".toList, "DEC_RD".toList, "ENC_RD".toList,
    "DEC_CPL".toList, "ENC_CPL".toList, "VAL_FORMAT".toList, "VAL_LENGTH".toList, "VAL_CAPACITY".toList,
    "DEC_ANY".toList]

/-- The names of the request fields (R25). -/
def fieldName : ReqField → Text
  | .word       => "word".toList
  | .value      => "value".toList
  | .hi         => "hi".toList
  | .lo         => "lo".toList
  | .buf        => "buf".toList
  | .address    => "address".toList
  | .data       => "data".toList
  | .byteEnable => "byte_enable".toList
  | .tag        => "tag".toList
  | .status     => "status".toList
  | .expFmt     => "exp_fmt".toList
  | .expType    => "exp_type".toList
  | .length     => "length".toList
  | .min        => "min".toList
  | .max        => "max".toList
  | .required   => "required".toList

/-- One field of a request set from its text; `none` where the text is no value of the field's width. -/
def setField (r : Request) (f : ReqField) (t : Text) : Option Request :=
  match f with
  | .word       => (readBits 32 t).map fun v => { r with word := v }
  | .value      => (readBits 32 t).map fun v => { r with value := v }
  | .hi         => (readBits 8 t).map fun v => { r with hi := v }
  | .lo         => (readBits 8 t).map fun v => { r with lo := v }
  | .buf        => (readBytes t).map fun v => { r with buf := v }
  | .address    => (readBits 32 t).map fun v => { r with address := v }
  | .data       => (readBytes t).map fun v => { r with data := v }
  | .byteEnable => (readBits 8 t).map fun v => { r with byteEnable := v }
  | .tag        => (readBits 8 t).map fun v => { r with tag := v }
  | .status     => (readBits 3 t).map fun v => { r with status := v }
  | .expFmt     => (readBits 2 t).map fun v => { r with expFmt := v }
  | .expType    => (readBits 6 t).map fun v => { r with expType := v }
  | .length     => (readBits 32 t).map fun v => { r with length := v }
  | .min        => (readBits 32 t).map fun v => { r with min := v }
  | .max        => (readBits 32 t).map fun v => { r with max := v }
  | .required   => (readBits 32 t).map fun v => { r with required := v }

/-- One field of a request as text. -/
def fieldText (r : Request) : ReqField → Text
  | .word       => bitsText r.word
  | .value      => bitsText r.value
  | .hi         => numberText r.hi.toNat
  | .lo         => numberText r.lo.toNat
  | .buf        => bytesText r.buf
  | .address    => bitsText r.address
  | .data       => bytesText r.data
  | .byteEnable => bitsText r.byteEnable
  | .tag        => bitsText r.tag
  | .status     => numberText r.status.toNat
  | .expFmt     => numberText r.expFmt.toNat
  | .expType    => bitsText r.expType
  | .length     => numberText r.length.toNat
  | .min        => numberText r.min.toNat
  | .max        => numberText r.max.toNat
  | .required   => numberText r.required.toNat

/-- The fields a line may set, all of them required, taken off one by one. -/
def setPairs : List ReqField → Request → List Text → Option Request
  | [], r, []             => some r
  | fs, r, pair :: pairs =>
    match pieces '=' (trimmed pair) with
    | [name, value] =>
      match fs.find? fun f => fieldName f == name with
      | some f =>
        match setField r f value with
        | some r' => setPairs (fs.erase f) r' pairs
        | none    => none
      | none => none
    | _ => none
  | _, _, []              => none

/-- R79: the pseudo-operations by name, with their operands still to be read. -/
def pseudoOperations : List (Text × Bool × (Word → Word → Pseudo)) :=
  [("GET_FMT".toList, false, fun w _ => .getFmt w), ("GET_TYPE".toList, false, fun w _ => .getType w),
    ("GET_TC".toList, false, fun w _ => .getTc w), ("GET_BE".toList, false, fun w _ => .getBe w),
    ("GET_LEN".toList, false, fun w _ => .getLen w), ("SET_FMT".toList, true, .setFmt),
    ("SET_TYPE".toList, true, .setType), ("SET_TC".toList, true, .setTc), ("SET_BE".toList, true, .setBe),
    ("SET_LEN".toList, true, .setLen)]

/-- R78, R79: the request a line of text stands for. Every field the operation reads is named exactly once, in any order. -/
def readRequest (t : Text) : Option Request :=
  let name := t.takeWhile (· ≠ ' ')
  let rest := trimmed (t.drop name.length)
  let pairs := if rest = [] then [] else pieces ',' rest
  match mnemonics.findIdx? (· == name) with
  | some k =>
    let op := BitVec.ofNat 4 k
    setPairs (readFields op) (blankRequest op) pairs
  | none =>
    match pseudoOperations.find? fun p => p.1 == name with
    | some (_, takesValue, build) =>
      (setPairs (if takesValue then [.word, .value] else [.word]) (blankRequest 0) pairs).map fun r =>
        encode (build r.word r.value).expand
    | none => none

/-- R78: a request as text; the reserved `op` values have no textual form. -/
def requestText (r : Request) : Option Text :=
  (mnemonics[r.op.toNat]?).map fun name =>
    name ++ [' '] ++
      (((readFields r.op).map fun f => fieldName f ++ ['='] ++ fieldText r f).intersperse ", ".toList).flatten

/-! ## Responses -/

/-- R78: an error kind is written by its name (R220). -/
def errorName : ErrorKind → Text
  | .malformedHeader      => "MalformedHeader".toList
  | .truncatedBuffer      => "TruncatedBuffer".toList
  | .invalidLength        => "InvalidLength".toList
  | .invalidPayloadLength => "InvalidPayloadLength".toList
  | .payloadTooLarge      => "PayloadTooLarge".toList
  | .invalidStatus        => "InvalidStatus".toList

/-- The fields every record begins with (R27). -/
def headText (fmt : BitVec 2) (type : BitVec 6) (tc : BitVec 4) (be : Byte) (length : BitVec 12) : Text :=
  "fmt=".toList ++ numberText fmt.toNat ++ ", type=".toList ++ bitsText type ++ ", tc=".toList ++
    numberText tc.toNat ++ ", be=".toList ++ bitsText be ++ ", length=".toList ++ numberText length.toNat

/-- A record between braces, its fields in the order of R27. -/
def recordText (r : Record) : Text :=
  Char.ofNat 123 ::
    (match r with
    | .write w =>
      headText w.fmt w.type w.tc w.be w.length ++ ", address=".toList ++ bitsText w.address ++ ", tag=".toList ++
        (match w.tag with
        | some t => "Some(".toList ++ bitsText t ++ [')']
        | none   => "None".toList) ++
        ", payload=".toList ++ bytesText w.payload
    | .read q =>
      headText q.fmt q.type q.tc q.be q.length ++ ", address=".toList ++ bitsText q.address ++ ", tag=".toList ++
        bitsText q.tag
    | .completion q =>
      headText q.fmt q.type q.tc q.be q.length ++ ", status=".toList ++ numberText q.status.toNat ++
        ", tag=".toList ++ bitsText q.tag ++ ", payload=".toList ++ bytesText q.payload) ++
    [Char.ofNat 125]

/-- R78: a response as text. -/
def responseText : Response → Text
  | .err e                  => "-> ".toList ++ errorName e
  | .ok (.word w)           => "-> OK result=".toList ++ bitsText w
  | .ok (.flag b)           => "-> OK flag=".toList ++ numberText b.toNat
  | .ok (.record r)         => "-> OK rec=".toList ++ recordText r
  | .ok (.tagged k r)       => "-> OK kind=".toList ++ numberText k.code.toNat ++ " rec=".toList ++ recordText r
  | .ok (.packet out olen)  => "-> OK out=".toList ++ bytesText out ++ " olen=".toList ++ numberText olen

/-- The two responses that are faults of the model are written by the names of their codes (R222). -/
def faultText : Fault → Text
  | .fieldRange => "-> FIELD_RANGE".toList
  | .illegalOp  => "-> ILLEGAL_OP".toList

end Sys2Proof.Machine
end

