-- ==== Sys2Proof/Safety.lean ====
section
/-! DEFINITION. The terms claims are made in: what is always true of the interface (`State.Inv`), what a caller owes with
every request (R230, R253, R102, R77), and a run that never stops (R223, R256). -/

namespace Sys2Proof.Machine

/-! ## What is always true -/

/-- R27, R68, R70: a record is of one packet type, its Length obeys that type's rule, and its payload has exactly
`4 * length` bytes. -/
def Record.wf (c : Config.Codes) : Record → Bool
  | .write r =>
    r.fmt == fmtWr && r.type == c.typeWr && decide (1 ≤ r.length.toNat) && r.payload.length == 4 * r.length.toNat
  | .read r => r.fmt == fmtRd && r.type == c.typeRd && r.length == 1
  | .completion r =>
    r.fmt == c.fmtCpl && r.type == c.typeCpl && c.statuses.contains r.status &&
      r.payload.length == 4 * r.length.toNat

/-- The packet type of a record, as DEC_ANY's `kind` names it (R200). -/
def Record.kind : Record → PacketKind
  | .write _      => .writeRequest
  | .read _       => .readRequest
  | .completion _ => .completion

/-- R26, R27, R45: what a response carries is consistent, and a delivered packet stands in the output buffer. -/
def Response.wf (c : Config.Codes) (outBuf : Memory) : Response → Bool
  | .ok (.record r)       => r.wf c
  | .ok (.tagged k r)     => r.wf c && k == r.kind
  | .ok (.packet out olen) =>
    olen == out.length && (cellsFrom 0 out).all fun b => Memory.read outBuf b.1 == some b.2
  | .ok (.word _)         => true
  | .ok (.flag _)         => true
  | .err _                => true

/-- An output buffer is in canonical form and lists nothing beyond its capacity. -/
def bufferOk (cap : Option Nat) (m : Memory) : Bool := Memory.wf m && Memory.within cap m

def Input.wf : Input → Bool
  | .request p      => bufferOk p.outCap p.outBuf
  | .reset (some p) => bufferOk p.outCap p.outBuf
  | .reset none     => true

/-- What every step keeps. -/
def State.Inv (s : State) : Prop :=
  bufferOk s.outCap s.outBuf = true ∧ s.inputs.all Input.wf = true ∧
    (∀ r, s.response = some r → r.wf codes s.outBuf = true)

/-! ## What a caller owes -/

/-- The three operations that write the output buffer (R28). -/
def writesOutput : Instr → Bool
  | .encWr _ _ _ _   => true
  | .encRd _ _       => true
  | .encCpl _ _ _    => true
  | .extract _ _ _   => false
  | .insert _ _ _ _  => false
  | .decWr _         => false
  | .decRd _         => false
  | .decCpl _        => false
  | .valFormat _ _ _ => false
  | .valLength _ _ _ => false
  | .valCapacity _ _ => false
  | .decAny _        => false
  | .reservedC       => false
  | .reservedD       => false
  | .reservedE       => false
  | .reservedF       => false

/-- The most bytes an operation can write to its output buffer (R123, R142, R162). -/
def outputBound : Instr → Nat
  | .encWr _ data _ _    => 13 + data.length
  | .encRd _ _           => 12
  | .encCpl data _ _     => 12 + data.length
  | .extract _ _ _       => 0
  | .insert _ _ _ _      => 0
  | .decWr _             => 0
  | .decRd _             => 0
  | .decCpl _            => 0
  | .valFormat _ _ _     => 0
  | .valLength _ _ _     => 0
  | .valCapacity _ _     => 0
  | .decAny _            => 0
  | .reservedC           => 0
  | .reservedD           => 0
  | .reservedE           => 0
  | .reservedF           => 0

/-- The operation has no fault (R102, R77): its indices are in range and its `op` is not reserved. -/
def faultless : Instr → Bool
  | .extract _ hi lo     => fieldInRange hi.toNat lo.toNat
  | .insert _ _ hi lo    => fieldInRange hi.toNat lo.toNat
  | .reservedC           => false
  | .reservedD           => false
  | .reservedE           => false
  | .reservedF           => false
  | .decWr _             => true
  | .encWr _ _ _ _       => true
  | .decRd _             => true
  | .encRd _ _           => true
  | .decCpl _            => true
  | .encCpl _ _ _        => true
  | .valFormat _ _ _     => true
  | .valLength _ _ _     => true
  | .valCapacity _ _     => true
  | .decAny _            => true

/-- A request a correct caller makes: admitted (R230), without a fault, its output buffer large enough (R46). -/
def Presented.sound (p : Presented) : Bool :=
  match admission p with
  | .ok i    => faultless i && capacityAllows p.outCap (outputBound i)
  | .error _ => false

def Input.sound : Input → Bool
  | .request p => p.sound
  | .reset _   => true

/-! ## A safe run -/

/-- `n` steps of the machine, none of which stops. -/
def RunsSafely : Nat → State → Prop
  | 0, _     => True
  | n + 1, s => ∃ t, step s = .next t ∧ RunsSafely n t

end Sys2Proof.Machine
end

