-- ==== Sys2Proof/Certificates/Slice0/Obligations.lean ====
section
/-! DEFINITION. What the provers are asked to prove of the machine. The results expected of the operations are written with
plain arithmetic on the bytes and words of the spec's tables (`Sys2Proof.Expect`), not with the functions the meanings use;
where a statement says what an operation does, its conclusion is the whole next state, so its frame is part of it. -/

/-! ## What the spec expects, in plain arithmetic -/

namespace Sys2Proof.Expect

open Sys2Proof.Machine

/-- R11: `w[hi:lo]` as a number. -/
def bits (w : Word) (hi lo : Nat) : Nat := w.toNat / 2 ^ lo % 2 ^ (hi - lo + 1)

/-- R13, R42: the four bytes of a dword, least significant first. -/
def bytes4 (w : Word) : Bytes :=
  [BitVec.ofNat 8 w.toNat, BitVec.ofNat 8 (w.toNat / 2 ^ 8), BitVec.ofNat 8 (w.toNat / 2 ^ 16),
    BitVec.ofNat 8 (w.toNat / 2 ^ 24)]

/-- R61: a buffer that begins with the dwords DW0, DW1, DW2. Every buffer of 12 bytes or more is one
(`Obligations.EveryLongBufferIsThreeDwordsAndARest`). -/
def packet (w0 w1 w2 : Word) (rest : Bytes) : Bytes := bytes4 w0 ++ bytes4 w1 ++ bytes4 w2 ++ rest

/-- R60: the Length field of a Header Word. -/
def len (w0 : Word) : Nat := bits w0 11 0

/-- R68: Format and Command Type of a write request. -/
def isWrite (w0 : Word) : Prop := bits w0 31 30 = 1 ∧ bits w0 29 24 = 0

/-- R68: Format and Command Type of a read request. -/
def isRead (w0 : Word) : Prop := bits w0 31 30 = 0 ∧ bits w0 29 24 = 0

/-- R68: Format and Command Type of a completion. -/
def isCompletion (w0 : Word) : Prop := bits w0 31 30 = 2 ∧ bits w0 29 24 = 0x0A

/-- R68: the recognized Status values. -/
def isStatus (n : Nat) : Prop := n = 0 ∨ n = 1 ∨ n = 2 ∨ n = 4

/-- R120: the record of a write request. -/
def writeRecord (w0 w1 w2 : Word) (rest : Bytes) : WriteRequest :=
  { fmt := BitVec.ofNat 2 (bits w0 31 30), type := BitVec.ofNat 6 (bits w0 29 24)
    tc := BitVec.ofNat 4 (bits w0 23 20), be := BitVec.ofNat 8 (bits w0 19 12)
    length := BitVec.ofNat 12 (len w0), address := w1
    tag := if bits w2 0 0 = 1 then rest[4 * len w0]? else none
    payload := rest.take (4 * len w0) }

/-- R140: the record of a read request. -/
def readRecord (w0 w1 w2 : Word) : ReadRequest :=
  { fmt := BitVec.ofNat 2 (bits w0 31 30), type := BitVec.ofNat 6 (bits w0 29 24)
    tc := BitVec.ofNat 4 (bits w0 23 20), be := BitVec.ofNat 8 (bits w0 19 12)
    length := 1, address := w1, tag := BitVec.ofNat 8 (bits w2 7 0) }

/-- R160: the record of a completion. -/
def completionRecord (w0 w1 w2 : Word) (rest : Bytes) : Completion :=
  { fmt := BitVec.ofNat 2 (bits w0 31 30), type := BitVec.ofNat 6 (bits w0 29 24)
    tc := BitVec.ofNat 4 (bits w0 23 20), be := BitVec.ofNat 8 (bits w0 19 12)
    length := BitVec.ofNat 12 (len w0), status := BitVec.ofNat 3 (bits w1 2 0)
    tag := BitVec.ofNat 8 (bits w2 7 0), payload := rest.take (4 * len w0) }

/-- R73: the packet ENC_WR writes. -/
def writePacket (address : Word) (data : Bytes) (be tag : Byte) : Bytes :=
  bytes4 (BitVec.ofNat 32 (0x40000000 + be.toNat * 2 ^ 12 + data.length / 4)) ++ bytes4 address ++ bytes4 1 ++ data ++
    [tag]

/-- R73: the packet ENC_RD writes. -/
def readPacket (address : Word) (tag : Byte) : Bytes :=
  bytes4 1 ++ bytes4 address ++ bytes4 (BitVec.ofNat 32 tag.toNat)

/-- R73: the packet ENC_CPL writes. -/
def completionPacket (data : Bytes) (status : BitVec 3) (tag : Byte) : Bytes :=
  bytes4 (BitVec.ofNat 32 (0x8A000000 + data.length / 4)) ++ bytes4 (BitVec.ofNat 32 status.toNat) ++
    bytes4 (BitVec.ofNat 32 tag.toNat) ++ data

/-- R46: the output buffer holds `n` bytes. -/
def holds (s : State) (n : Nat) : Prop := ∀ k, s.outCap = some k → n ≤ k

/-- R224 with R220 and the rule of each operation: the codes it can give. -/
def allowedCodes : Instr → List (BitVec 4)
  | .extract _ _ _   => [0, 7]
  | .insert _ _ _ _  => [0, 7]
  | .decWr _         => [0, 1, 2, 3]
  | .encWr _ _ _ _   => [0, 4, 5]
  | .decRd _         => [0, 1, 2, 3]
  | .encRd _ _       => [0]
  | .decCpl _        => [0, 1, 2, 6]
  | .encCpl _ _ _    => [0, 4, 5, 6]
  | .valFormat _ _ _ => [0]
  | .valLength _ _ _ => [0]
  | .valCapacity _ _ => [0]
  | .decAny _        => [0, 1, 2, 3, 6]
  | .reservedC       => [8]
  | .reservedD       => [8]
  | .reservedE       => [8]
  | .reservedF       => [8]

/-- R26 and R76's column "produces on OK": exactly these fields are present. -/
def carries (i : Instr) (r : Response) : Prop :=
  match i with
  | .extract _ _ _ | .insert _ _ _ _ =>
    r.result.isSome ∧ r.flag = none ∧ r.kind = none ∧ r.record = none ∧ r.out = none ∧ r.olen = none
  | .valFormat _ _ _ | .valLength _ _ _ | .valCapacity _ _ =>
    r.flag.isSome ∧ r.result = none ∧ r.kind = none ∧ r.record = none ∧ r.out = none ∧ r.olen = none
  | .decWr _ =>
    (∃ w, r.record = some (.write w)) ∧ r.result = none ∧ r.flag = none ∧ r.kind = none ∧ r.out = none ∧
      r.olen = none
  | .decRd _ =>
    (∃ q, r.record = some (.read q)) ∧ r.result = none ∧ r.flag = none ∧ r.kind = none ∧ r.out = none ∧
      r.olen = none
  | .decCpl _ =>
    (∃ q, r.record = some (.completion q)) ∧ r.result = none ∧ r.flag = none ∧ r.kind = none ∧ r.out = none ∧
      r.olen = none
  | .decAny _ =>
    ((r.kind = some 0 ∧ ∃ q, r.record = some (.read q)) ∨ (r.kind = some 1 ∧ ∃ w, r.record = some (.write w)) ∨
      (r.kind = some 2 ∧ ∃ q, r.record = some (.completion q))) ∧ r.result = none ∧ r.flag = none ∧ r.out = none ∧
      r.olen = none
  | .encWr _ _ _ _ | .encRd _ _ | .encCpl _ _ _ =>
    (∃ out, r.out = some out ∧ r.olen = some out.length) ∧ r.result = none ∧ r.flag = none ∧ r.kind = none ∧
      r.record = none
  | .reservedC | .reservedD | .reservedE | .reservedF => False

/-- R26: no field beside the code. -/
def carriesNothing (r : Response) : Prop :=
  r.result = none ∧ r.flag = none ∧ r.kind = none ∧ r.record = none ∧ r.out = none ∧ r.olen = none

/-- What one request is answered by itself, on a block that has done nothing else. -/
def soleAnswer (p : Presented) : Host.Outcome State Fault Refusal :=
  step { State.reset with inputs := [.request p] }

end Sys2Proof.Expect

open Sys2Proof Sys2Proof.Machine Sys2Proof.Expect

/-! ## The step, reset and the interface -/

/-- A step performs the operation of the request it takes, on the state in which that request is taken. R3, R22, R54; that
requests wait in a list is the model's choice (log entry 2). -/
def Obligations.StepPerformsTheDecodedRequest : Prop :=
  ∀ (s : State) (p : Presented) (rest : List Input) (i : Instr),
    s.inputs = .request p :: rest → p.unstable = false → p.aliased = false → decode p.req = .ok i →
      step s = exec i { inputs := rest, response := none, outBuf := p.outBuf, outCap := p.outCap }

/-- With no request a step changes nothing. The model's choice (log entry 2). -/
def Obligations.StepWithNothingWaitingChangesNothing : Prop :=
  ∀ s : State, s.inputs = [] → step s = .next s

/-- R252: reset while a request is in flight gives no response and leaves its output buffer as it was. That reset is an
input, that waiting requests stay, and that the request in flight is discarded even where R51 or R52 would have it refused,
are the model's choices (log entry 9). -/
def Obligations.ResetDiscardsTheRequestInFlight : Prop :=
  ∀ (s : State) (p : Presented) (rest : List Input), s.inputs = .reset (some p) :: rest →
    ∃ t, step s = .next t ∧ t.response = none ∧ t.inputs = rest ∧ t.outCap = p.outCap ∧
      ∀ a, Memory.read t.outBuf a = Memory.read p.outBuf a

/-- R250, R251: reset with no request in flight sets nothing but that no response is pending. That reset is an input is the
model's choice (log entry 9). -/
def Obligations.ResetLeavesNoResponsePending : Prop :=
  State.reset.response = none ∧
    ∀ (s : State) (rest : List Input), s.inputs = .reset none :: rest →
      step s = .next { s with inputs := rest, response := none }

/-- R51: a request the model is told breaks the condition is refused, whatever its operation and its lengths. Where R51 is
its only reason to be refused, it is so by the name of what it was told, and where it was told both, by either; which name
stands first where R52 refuses it too is left open here (the model's choice, log entry 10). -/
def Obligations.RequestsToldUnstableOrAliasedAreRefused : Prop :=
  ∀ (s : State) (p : Presented) (rest : List Input), s.inputs = .request p :: rest →
    (p.unstable = true ∨ p.aliased = true → ∃ r, step s = .refused r ∧
      (r = .unstableBuffers ∨ r = .aliasedBuffers ∨ r = .bufTooLong ∨ r = .dataTooLong)) ∧
    (p.req.buf.length ≤ Config.maxBufBytes → p.req.data.length ≤ Config.maxDataBytes →
      (p.unstable = true → p.aliased = false → step s = .refused .unstableBuffers) ∧
      (p.unstable = false → p.aliased = true → step s = .refused .aliasedBuffers) ∧
      (p.unstable = true → p.aliased = true →
        step s = .refused .unstableBuffers ∨ step s = .refused .aliasedBuffers))

/-- R52: requests longer than the interface takes are refused, and all others, the least sizes among them, can be
presented. Where both byte sequences are too long, by either name (log entry 10). -/
def Obligations.RequestsBeyondTheSizeLimitsAreRefused : Prop :=
  16393 ≤ Config.maxBufBytes ∧ 16384 ≤ Config.maxDataBytes ∧
    (∀ (s : State) (p : Presented) (rest : List Input), s.inputs = .request p :: rest →
      p.unstable = false → p.aliased = false →
        (Config.maxBufBytes < p.req.buf.length → p.req.data.length ≤ Config.maxDataBytes →
          step s = .refused .bufTooLong) ∧
        (p.req.buf.length ≤ Config.maxBufBytes → Config.maxDataBytes < p.req.data.length →
          step s = .refused .dataTooLong) ∧
        (Config.maxBufBytes < p.req.buf.length → Config.maxDataBytes < p.req.data.length →
          step s = .refused .bufTooLong ∨ step s = .refused .dataTooLong)) ∧
    ∀ r : Request, r.buf.length ≤ Config.maxBufBytes → r.data.length ≤ Config.maxDataBytes →
      ∃ i, decode r = .ok i

/-- R25: a field the operation does not read has no effect on what the step does. -/
def Obligations.UnreadRequestFieldsHaveNoEffect : Prop :=
  ∀ (s s' : State) (p : Presented) (r' : Request) (rest : List Input),
    s.inputs = .request p :: rest → s'.inputs = .request { p with req := r' } :: rest →
      p.req.buf.length ≤ Config.maxBufBytes → p.req.data.length ≤ Config.maxDataBytes →
      r'.buf.length ≤ Config.maxBufBytes → r'.data.length ≤ Config.maxDataBytes →
      p.req.sameReading r' = true → step s = step s'

/-- R20, R50: what a step does with a request does not depend on anything that came before it. -/
def Obligations.AStepDependsOnItsRequestAlone : Prop :=
  ∀ (s s' : State) (p : Presented) (rest rest' : List Input),
    s.inputs = .request p :: rest → s'.inputs = .request p :: rest' →
      (∀ t, step s = .next t → step s' = .next { t with inputs := rest' }) ∧
        (∀ f, step s = .fault f → step s' = .fault f) ∧ (∀ r, step s = .refused r → step s' = .refused r)

/-- R54, R228: in a run over any sequence of requests that correct callers make, in any order and after any errors, each
request is answered as it is by itself. -/
def Obligations.EveryOrderGivesEachRequestItsOwnAnswer : Prop :=
  ∀ (s : State) (ps : List Presented) (rest : List Input) (k : Nat) (p : Presented),
    s.inputs = ps.map .request ++ rest → (∀ q ∈ ps, q.sound = true) → ps[k]? = some p →
      ∃ t u r, Host.Core.run Sys2Proof.core (k + 1) s = .next t ∧ soleAnswer p = .next u ∧
        u.response = some r ∧ t.response = some r ∧ t.outBuf = u.outBuf

/-! ## Request encoding -/

/-- The sixteen values of `op` (R75), as opcode_table.json numbers them. That a word of that table stands for the request
whose operands are all zero or empty is the model's reading of it (log entry 15). -/
def Obligations.OpcodeTableWordsDecode : Prop :=
  decodeTableWord 8 0x00 = some (.extract 0 0 0) ∧ decodeTableWord 8 0x01 = some (.insert 0 0 0 0) ∧
    decodeTableWord 8 0x02 = some (.decWr []) ∧ decodeTableWord 8 0x03 = some (.encWr 0 [] 0 0) ∧
    decodeTableWord 8 0x04 = some (.decRd []) ∧ decodeTableWord 8 0x05 = some (.encRd 0 0) ∧
    decodeTableWord 8 0x06 = some (.decCpl []) ∧ decodeTableWord 8 0x07 = some (.encCpl [] 0 0) ∧
    decodeTableWord 8 0x08 = some (.valFormat 0 0 0) ∧ decodeTableWord 8 0x09 = some (.valLength 0 0 0) ∧
    decodeTableWord 8 0x0A = some (.valCapacity [] 0) ∧ decodeTableWord 8 0x0B = some (.decAny []) ∧
    decodeTableWord 8 0x0C = some .reservedC ∧ decodeTableWord 8 0x0D = some .reservedD ∧
    decodeTableWord 8 0x0E = some .reservedE ∧ decodeTableWord 8 0x0F = some .reservedF

/-- Decoding and encoding requests agree, both ways (R75, R76): a well-formed operation is read back, and a request that
decodes agrees with the operation's own request on everything the operation reads. -/
def Obligations.RequestDecodingAndEncodingAgree : Prop :=
  (∀ i : Instr, i.wellFormed = true → decode (encode i) = .ok i) ∧
    ∀ (r : Request) (i : Instr), decode r = .ok i → i.wellFormed = true ∧ r.sameReading (encode i) = true

/-- R79: each pseudo-operation is one EXTRACT or INSERT of a Header Word field, and so answers that field, or the word with
that field replaced. -/
def Obligations.PseudoOperationsReadAndReplaceHeaderFields : Prop :=
  ∀ (w v : Word) (s : State),
    let gives (p : Pseudo) (r : Word) : Prop := exec p.expand s = .next { s with response := some (.ok (.word r)) }
    let replaces (p : Pseudo) (hi lo : Nat) : Prop :=
      ∃ r : Word, gives p r ∧ bits r hi lo = v.toNat % 2 ^ (hi - lo + 1) ∧
        ∀ k, k < 32 → k < lo ∨ hi < k → r.getLsbD k = w.getLsbD k
    ((Pseudo.getFmt w).expand = .extract w 31 30 ∧ (Pseudo.getType w).expand = .extract w 29 24 ∧
      (Pseudo.getTc w).expand = .extract w 23 20 ∧ (Pseudo.getBe w).expand = .extract w 19 12 ∧
      (Pseudo.getLen w).expand = .extract w 11 0 ∧ (Pseudo.setFmt w v).expand = .insert w v 31 30 ∧
      (Pseudo.setType w v).expand = .insert w v 29 24 ∧ (Pseudo.setTc w v).expand = .insert w v 23 20 ∧
      (Pseudo.setBe w v).expand = .insert w v 19 12 ∧ (Pseudo.setLen w v).expand = .insert w v 11 0) ∧
    (gives (.getFmt w) (BitVec.ofNat 32 (bits w 31 30)) ∧ gives (.getType w) (BitVec.ofNat 32 (bits w 29 24)) ∧
      gives (.getTc w) (BitVec.ofNat 32 (bits w 23 20)) ∧ gives (.getBe w) (BitVec.ofNat 32 (bits w 19 12)) ∧
      gives (.getLen w) (BitVec.ofNat 32 (bits w 11 0))) ∧
    (replaces (.setFmt w v) 31 30 ∧ replaces (.setType w v) 29 24 ∧ replaces (.setTc w v) 23 20 ∧
      replaces (.setBe w v) 19 12 ∧ replaces (.setLen w v) 11 0)

/-- R78: a byte sequence written as text is read back, and so is a 32-bit number. -/
def Obligations.TextIsReadBack : Prop :=
  (∀ s : Bytes, readBytes (bytesText s) = some s) ∧ ∀ w : Word, readBits 32 (bitsText w) = some w

/-! ## Byte order -/

/-- R41: `DW(s, k)` is little-endian. -/
def Obligations.DwordsAreReadLittleEndian : Prop :=
  ∀ (s : Bytes) (k : Nat) (h : 4 * k + 3 < s.length),
    (dw s k).toNat =
      s[4 * k].toNat + s[4 * k + 1].toNat * 2 ^ 8 + s[4 * k + 2].toNat * 2 ^ 16 + s[4 * k + 3].toNat * 2 ^ 24

/-- R42: `le32` gives the four bytes least significant first, and reading them back gives the dword. -/
def Obligations.DwordsAreWrittenLittleEndian : Prop :=
  ∀ v : Word, le32 v = bytes4 v ∧ dw (le32 v) 0 = v

/-- R61: the form `packet w0 w1 w2 rest`, in which the decoder statements are written, covers every buffer of at least 12
bytes, and its dwords are the three the decoders read. -/
def Obligations.EveryLongBufferIsThreeDwordsAndARest : Prop :=
  (∀ buf : Bytes, 12 ≤ buf.length → ∃ w0 w1 w2 rest, buf = packet w0 w1 w2 rest) ∧
    ∀ (w0 w1 w2 : Word) (rest : Bytes),
      dw (packet w0 w1 w2 rest) 0 = w0 ∧ dw (packet w0 w1 w2 rest) 1 = w1 ∧ dw (packet w0 w1 w2 rest) 2 = w2

/-! ## EXTRACT and INSERT -/

/-- R100, R102: EXTRACT, `op` 0x0, answers `word[hi:lo]`, or faults where the bounds are out of range, with the code
FIELD_RANGE. -/
def Obligations.ExtractAnswersTheField : Prop :=
  ∀ (w : Word) (hi lo : Byte) (s : State),
    (lo.toNat ≤ hi.toNat → hi.toNat ≤ 31 →
      exec (.extract w hi lo) s =
        .next { s with response := some (.ok (.word (BitVec.ofNat 32 (bits w hi.toNat lo.toNat)))) }) ∧
      (hi.toNat < lo.toNat ∨ 31 < hi.toNat → exec (.extract w hi lo) s = .fault .fieldRange) ∧
      Fault.fieldRange.code = 7 ∧ (encode (.extract w hi lo)).op = 0x0

/-- R101, R102: INSERT, `op` 0x1, answers `word` with bits `hi:lo` replaced by the low bits of `value` and every other bit
unchanged, or faults where the bounds are out of range, with the code FIELD_RANGE. -/
def Obligations.InsertReplacesTheField : Prop :=
  ∀ (w v : Word) (hi lo : Byte) (s : State),
    (lo.toNat ≤ hi.toNat → hi.toNat ≤ 31 →
      ∃ r : Word, exec (.insert w v hi lo) s = .next { s with response := some (.ok (.word r)) } ∧
        ∀ p, p < 32 → r.getLsbD p =
          if lo.toNat ≤ p ∧ p ≤ hi.toNat then v.getLsbD (p - lo.toNat) else w.getLsbD p) ∧
      (hi.toNat < lo.toNat ∨ 31 < hi.toNat → exec (.insert w v hi lo) s = .fault .fieldRange) ∧
      Fault.fieldRange.code = 7 ∧ (encode (.insert w v hi lo)).op = 0x1

/-- R103: field isolation. -/
def Obligations.InsertChangesOnlyItsField : Prop :=
  ∀ (w v : Word) (hi lo p : Byte) (s : State), lo.toNat ≤ hi.toNat → hi.toNat ≤ 31 → p.toNat ≤ 31 →
    p.toNat < lo.toNat ∨ hi.toNat < p.toNat →
      ∃ r x : Word, exec (.insert w v hi lo) s = .next { s with response := some (.ok (.word r)) } ∧
        exec (.extract r p p) s = .next { s with response := some (.ok (.word x)) } ∧
        exec (.extract w p p) s = .next { s with response := some (.ok (.word x)) }

/-- R104: extracting an extracted field again, at its own width, gives it again. -/
def Obligations.ExtractionIsIdempotent : Prop :=
  ∀ (w : Word) (hi lo : Byte) (s : State), lo.toNat ≤ hi.toNat → hi.toNat ≤ 31 →
    ∃ x : Word, exec (.extract w hi lo) s = .next { s with response := some (.ok (.word x)) } ∧
      exec (.extract x (hi - lo) 0) s = .next { s with response := some (.ok (.word x)) }

/-- R105: an inserted value is extracted modulo the field's width, and inserting what was extracted changes nothing. -/
def Obligations.ExtractAndInsertUndoEachOther : Prop :=
  ∀ (w v : Word) (hi lo : Byte) (s : State), lo.toNat ≤ hi.toNat → hi.toNat ≤ 31 →
    (∃ r : Word, exec (.insert w v hi lo) s = .next { s with response := some (.ok (.word r)) } ∧
      exec (.extract r hi lo) s =
        .next { s with
          response := some (.ok (.word (BitVec.ofNat 32 (v.toNat % 2 ^ (hi.toNat - lo.toNat + 1))))) }) ∧
      ∃ x : Word, exec (.extract w hi lo) s = .next { s with response := some (.ok (.word x)) } ∧
        exec (.insert w x hi lo) s = .next { s with response := some (.ok (.word w)) }

/-- R106: EXTRACT reads no bit outside its field. -/
def Obligations.ExtractReadsOnlyItsField : Prop :=
  ∀ (w w' : Word) (hi lo : Byte) (s : State),
    (∀ p, lo.toNat ≤ p → p ≤ hi.toNat → w.getLsbD p = w'.getLsbD p) →
      exec (.extract w hi lo) s = exec (.extract w' hi lo) s

/-! ## The decoders -/

/-- R120, R121, R122: DEC_WR, `op` 0x2, by the first of its checks that fails, or its record. -/
def Obligations.DecWrDecodesOrReportsTheFirstError : Prop :=
  ∀ s : State,
    (∀ buf : Bytes, buf.length < 12 →
      exec (.decWr buf) s = .next { s with response := some (.err .truncatedBuffer) }) ∧
    (∀ buf : Bytes, (encode (.decWr buf)).op = 0x2) ∧
    ∀ (w0 w1 w2 : Word) (rest : Bytes),
      (¬ isWrite w0 → exec (.decWr (packet w0 w1 w2 rest)) s =
        .next { s with response := some (.err .malformedHeader) }) ∧
      (isWrite w0 → len w0 = 0 → exec (.decWr (packet w0 w1 w2 rest)) s =
        .next { s with response := some (.err .invalidLength) }) ∧
      (isWrite w0 → len w0 ≠ 0 → rest.length < 4 * len w0 + bits w2 0 0 →
        exec (.decWr (packet w0 w1 w2 rest)) s = .next { s with response := some (.err .truncatedBuffer) }) ∧
      (isWrite w0 → len w0 ≠ 0 → 4 * len w0 + bits w2 0 0 ≤ rest.length →
        exec (.decWr (packet w0 w1 w2 rest)) s =
          .next { s with response := some (.ok (.record (.write (writeRecord w0 w1 w2 rest)))) })

/-- R140, R141: DEC_RD, `op` 0x4, by the first of its checks that fails, or its record. -/
def Obligations.DecRdDecodesOrReportsTheFirstError : Prop :=
  ∀ s : State,
    (∀ buf : Bytes, buf.length < 12 →
      exec (.decRd buf) s = .next { s with response := some (.err .truncatedBuffer) }) ∧
    (∀ buf : Bytes, (encode (.decRd buf)).op = 0x4) ∧
    ∀ (w0 w1 w2 : Word) (rest : Bytes),
      (¬ isRead w0 → exec (.decRd (packet w0 w1 w2 rest)) s =
        .next { s with response := some (.err .malformedHeader) }) ∧
      (isRead w0 → len w0 ≠ 1 → exec (.decRd (packet w0 w1 w2 rest)) s =
        .next { s with response := some (.err .invalidLength) }) ∧
      (isRead w0 → len w0 = 1 → exec (.decRd (packet w0 w1 w2 rest)) s =
        .next { s with response := some (.ok (.record (.read (readRecord w0 w1 w2)))) })

/-- R160, R161: DEC_CPL, `op` 0x6, by the first of its checks that fails, or its record. -/
def Obligations.DecCplDecodesOrReportsTheFirstError : Prop :=
  ∀ s : State,
    (∀ buf : Bytes, buf.length < 12 →
      exec (.decCpl buf) s = .next { s with response := some (.err .truncatedBuffer) }) ∧
    (∀ buf : Bytes, (encode (.decCpl buf)).op = 0x6) ∧
    ∀ (w0 w1 w2 : Word) (rest : Bytes),
      (¬ isCompletion w0 → exec (.decCpl (packet w0 w1 w2 rest)) s =
        .next { s with response := some (.err .malformedHeader) }) ∧
      (isCompletion w0 → ¬ isStatus (bits w1 2 0) → exec (.decCpl (packet w0 w1 w2 rest)) s =
        .next { s with response := some (.err .invalidStatus) }) ∧
      (isCompletion w0 → isStatus (bits w1 2 0) → rest.length < 4 * len w0 →
        exec (.decCpl (packet w0 w1 w2 rest)) s = .next { s with response := some (.err .truncatedBuffer) }) ∧
      (isCompletion w0 → isStatus (bits w1 2 0) → 4 * len w0 ≤ rest.length →
        exec (.decCpl (packet w0 w1 w2 rest)) s =
          .next { s with response := some (.ok (.record (.completion (completionRecord w0 w1 w2 rest)))) })

/-- R200: DEC_ANY decodes a packet of each type, with its kind. -/
def Obligations.DecAnyDecodesEveryPacketType : Prop :=
  ∀ (s : State) (w0 w1 w2 : Word) (rest : Bytes),
    (isRead w0 → len w0 = 1 → exec (.decAny (packet w0 w1 w2 rest)) s =
      .next { s with response := some (.ok (.tagged .readRequest (.read (readRecord w0 w1 w2)))) }) ∧
    (isWrite w0 → len w0 ≠ 0 → 4 * len w0 + bits w2 0 0 ≤ rest.length →
      exec (.decAny (packet w0 w1 w2 rest)) s =
        .next { s with response := some (.ok (.tagged .writeRequest (.write (writeRecord w0 w1 w2 rest)))) }) ∧
    (isCompletion w0 → isStatus (bits w1 2 0) → 4 * len w0 ≤ rest.length →
      exec (.decAny (packet w0 w1 w2 rest)) s =
        .next { s with response := some (.ok (.tagged .completion (.completion (completionRecord w0 w1 w2 rest)))) })

/-- R200, R201: DEC_ANY, `op` 0xB, answers as the decoder its Format selects, with the kind added on success; a short buffer is
truncated before its Format is read, Format `0b11` is malformed, and a decoder given another type's packet reports
`MalformedHeader`. -/
def Obligations.DecAnyIsTheDecoderItsFormatSelects : Prop :=
  (∀ (buf : Bytes) (s : State), buf.length < 12 →
    exec (.decAny buf) s = .next { s with response := some (.err .truncatedBuffer) }) ∧
  (∀ buf : Bytes, (encode (.decAny buf)).op = 0xB) ∧
  ∀ (w0 w1 w2 : Word) (rest : Bytes) (s : State) (e : ErrorKind) (q : Record),
    let buf := packet w0 w1 w2 rest
    let failed : Host.Outcome State Fault Refusal := .next { s with response := some (.err e) }
    let gave (r : Result) : Host.Outcome State Fault Refusal := .next { s with response := some (.ok r) }
    let malformed : Host.Outcome State Fault Refusal := .next { s with response := some (.err .malformedHeader) }
    (bits w0 31 30 = 0 →
      (exec (.decAny buf) s = failed ↔ exec (.decRd buf) s = failed) ∧
        (exec (.decAny buf) s = gave (.tagged .readRequest q) ↔ exec (.decRd buf) s = gave (.record q)) ∧
        exec (.decWr buf) s = malformed ∧ exec (.decCpl buf) s = malformed) ∧
    (bits w0 31 30 = 1 →
      (exec (.decAny buf) s = failed ↔ exec (.decWr buf) s = failed) ∧
        (exec (.decAny buf) s = gave (.tagged .writeRequest q) ↔ exec (.decWr buf) s = gave (.record q)) ∧
        exec (.decRd buf) s = malformed ∧ exec (.decCpl buf) s = malformed) ∧
    (bits w0 31 30 = 2 →
      (exec (.decAny buf) s = failed ↔ exec (.decCpl buf) s = failed) ∧
        (exec (.decAny buf) s = gave (.tagged .completion q) ↔ exec (.decCpl buf) s = gave (.record q)) ∧
        exec (.decRd buf) s = malformed ∧ exec (.decWr buf) s = malformed) ∧
    (bits w0 31 30 = 3 → exec (.decAny buf) s = malformed)

/-- R69: no decoder looks at a reserved bit, nor, unless it finds the packet truncated, at a byte beyond it; and the
encoders write every reserved bit as 0. -/
def Obligations.ReservedBitsAndTrailingBytesAreIgnored : Prop :=
  (∀ (w0 w1 w1' w2 w2' : Word) (rest : Bytes) (s : State),
    let buf := packet w0 w1 w2 rest
    (bits w2 0 0 = bits w2' 0 0 →
      exec (.decWr buf) s = exec (.decWr (packet w0 w1 w2' rest)) s ∧
        (bits w0 31 30 = 1 → exec (.decAny buf) s = exec (.decAny (packet w0 w1 w2' rest)) s)) ∧
    (bits w2 7 0 = bits w2' 7 0 →
      exec (.decRd buf) s = exec (.decRd (packet w0 w1 w2' rest)) s ∧
        (bits w0 31 30 = 0 → exec (.decAny buf) s = exec (.decAny (packet w0 w1 w2' rest)) s)) ∧
    (bits w1 2 0 = bits w1' 2 0 → bits w2 7 0 = bits w2' 7 0 →
      exec (.decCpl buf) s = exec (.decCpl (packet w0 w1' w2' rest)) s ∧
        (bits w0 31 30 = 2 → exec (.decAny buf) s = exec (.decAny (packet w0 w1' w2' rest)) s))) ∧
  (∀ (buf extra : Bytes) (s t : State), t.response ≠ some (.err .truncatedBuffer) →
    (exec (.decWr buf) s = .next t → exec (.decWr (buf ++ extra)) s = .next t) ∧
    (exec (.decRd buf) s = .next t → exec (.decRd (buf ++ extra)) s = .next t) ∧
    (exec (.decCpl buf) s = .next t → exec (.decCpl (buf ++ extra)) s = .next t) ∧
    (exec (.decAny buf) s = .next t → exec (.decAny (buf ++ extra)) s = .next t)) ∧
  ∀ (s t : State) (out : Bytes) (n : Nat), t.response = some (.ok (.packet out n)) →
    (∀ a d be g, exec (.encWr a d be g) s = .next t → bits (dw out 2) 31 1 = 0) ∧
    (∀ a g, exec (.encRd a g) s = .next t → bits (dw out 2) 31 8 = 0) ∧
    (∀ d st g, exec (.encCpl d st g) s = .next t → bits (dw out 1) 31 3 = 0 ∧ bits (dw out 2) 31 8 = 0)

/-- R44: payload bytes are copied in order, from `buf` by the decoders and from `data` by the encoders. -/
def Obligations.PayloadBytesAreCopiedInOrder : Prop :=
  (∀ (buf : Bytes) (s t : State) (w : WriteRequest), exec (.decWr buf) s = .next t →
    t.response = some (.ok (.record (.write w))) →
      w.payload.length = 4 * w.length.toNat ∧ ∀ j, j < w.payload.length → w.payload[j]? = buf[12 + j]?) ∧
  (∀ (buf : Bytes) (s t : State) (q : Completion), exec (.decCpl buf) s = .next t →
    t.response = some (.ok (.record (.completion q))) →
      q.payload.length = 4 * q.length.toNat ∧ ∀ j, j < q.payload.length → q.payload[j]? = buf[12 + j]?) ∧
  ∀ (s t : State) (out data : Bytes) (n : Nat), t.response = some (.ok (.packet out n)) →
    (∀ a be g, exec (.encWr a data be g) s = .next t → ∀ j, j < data.length → out[12 + j]? = data[j]?) ∧
    (∀ st g, exec (.encCpl data st g) s = .next t → ∀ j, j < data.length → out[12 + j]? = data[j]?)

/-! ## The encoders -/

/-- R123, R124: ENC_WR, `op` 0x3, by the first of its checks that fails, or its packet, whole and in the output buffer. -/
def Obligations.EncWrWritesItsPacketOrReportsTheFirstError : Prop :=
  ∀ (address : Word) (data : Bytes) (be tag : Byte) (s : State),
    (encode (.encWr address data be tag)).op = 0x3 ∧
    (data.length = 0 ∨ data.length % 4 ≠ 0 →
      exec (.encWr address data be tag) s = .next { s with response := some (.err .invalidPayloadLength) }) ∧
    (16380 < data.length → data.length % 4 = 0 →
      exec (.encWr address data be tag) s = .next { s with response := some (.err .payloadTooLarge) }) ∧
    (4 ≤ data.length → data.length ≤ 16380 → data.length % 4 = 0 → holds s (13 + data.length) →
      exec (.encWr address data be tag) s =
        .next { s with
          response := some (.ok (.packet (writePacket address data be tag) (13 + data.length)))
          outBuf := Memory.store (writePacket address data be tag) s.outBuf })

/-- R142, R143, R144: ENC_RD, `op` 0x5, always gives its 12 bytes. -/
def Obligations.EncRdAlwaysWritesItsPacket : Prop :=
  ∀ (address : Word) (tag : Byte) (s : State), holds s 12 →
    (encode (.encRd address tag)).op = 0x5 ∧ exec (.encRd address tag) s =
      .next { s with
        response := some (.ok (.packet (readPacket address tag) 12))
        outBuf := Memory.store (readPacket address tag) s.outBuf }

/-- R162, R163, R164: ENC_CPL, `op` 0x7, by the first of its checks that fails, or its packet, whole and in the output buffer. -/
def Obligations.EncCplWritesItsPacketOrReportsTheFirstError : Prop :=
  ∀ (data : Bytes) (status : BitVec 3) (tag : Byte) (s : State),
    (encode (.encCpl data status tag)).op = 0x7 ∧
    (data.length % 4 ≠ 0 →
      exec (.encCpl data status tag) s = .next { s with response := some (.err .invalidPayloadLength) }) ∧
    (16380 < data.length → data.length % 4 = 0 →
      exec (.encCpl data status tag) s = .next { s with response := some (.err .payloadTooLarge) }) ∧
    (data.length ≤ 16380 → data.length % 4 = 0 → ¬ isStatus status.toNat →
      exec (.encCpl data status tag) s = .next { s with response := some (.err .invalidStatus) }) ∧
    (data.length ≤ 16380 → data.length % 4 = 0 → isStatus status.toNat → holds s (12 + data.length) →
      exec (.encCpl data status tag) s =
        .next { s with
          response := some (.ok (.packet (completionPacket data status tag) (12 + data.length)))
          outBuf := Memory.store (completionPacket data status tag) s.outBuf })

/-- R46: an encode whose output would be longer than OUT_CAP is refused, and where OUT_CAP is unbounded nothing is
refused on this ground. -/
def Obligations.OutputLongerThanItsBufferIsRefused : Prop :=
  (∀ (s : State) (k : Nat), s.outCap = some k →
    (∀ a data be tag, 4 ≤ data.length → data.length ≤ 16380 → data.length % 4 = 0 → k < 13 + data.length →
      exec (.encWr a data be tag) s = .refused .outputTooLong) ∧
    (∀ a tag, k < 12 → exec (.encRd a tag) s = .refused .outputTooLong) ∧
    (∀ data st tag, data.length ≤ 16380 → data.length % 4 = 0 → isStatus st.toNat → k < 12 + data.length →
      exec (.encCpl data st tag) s = .refused .outputTooLong)) ∧
  ∀ (s : State) (i : Instr), s.outCap = none → exec i s ≠ .refused .outputTooLong

/-- R45: a successful encoder writes bytes `0 .. olen - 1` of the output buffer and no other; a failing encoder, a decoder,
a validator and a bit-field operation write none. Nothing else of the state changes but the response. -/
def Obligations.OnlyTheOutputOfAnEncoderIsWritten : Prop :=
  ∀ (i : Instr) (s t : State), exec i s = .next t →
    t.inputs = s.inputs ∧ t.outCap = s.outCap ∧
      ((∃ out olen, writesOutput i = true ∧ t.response = some (.ok (.packet out olen)) ∧ olen = out.length ∧
          ∀ a, Memory.read t.outBuf a = if a < olen then out[a]? else Memory.read s.outBuf a) ∨
        ((∀ out olen, t.response ≠ some (.ok (.packet out olen))) ∧
          ∀ a, Memory.read t.outBuf a = Memory.read s.outBuf a))

/-- The frame of EXTRACT, INSERT, DEC_WR, DEC_RD, DEC_CPL, DEC_ANY, VAL_FORMAT, VAL_LENGTH and VAL_CAPACITY: nothing but
the response changes (R45, R183, R227). -/
def Obligations.OperationsWithoutOutputChangeOnlyTheResponse : Prop :=
  ∀ (i : Instr) (s t : State), writesOutput i = false → exec i s = .next t →
    ∃ r, t = { s with response := some r }

/-! ## The validators -/

/-- R180: VAL_FORMAT, `op` 0x8. -/
def Obligations.ValFormatComparesFormatAndType : Prop :=
  ∀ (w : Word) (f : BitVec 2) (ty : BitVec 6) (s : State),
    exec (.valFormat w f ty) s =
      .next { s with
        response := some (.ok (.flag (decide (bits w 31 30 = f.toNat ∧ bits w 29 24 = ty.toNat)))) } ∧
    (encode (.valFormat w f ty)).op = 0x8

/-- R181: VAL_LENGTH, `op` 0x9, both bounds included; `min > max` gives 0 for every length. -/
def Obligations.ValLengthTestsAClosedRange : Prop :=
  ∀ (l lo hi : Word) (s : State),
    exec (.valLength l lo hi) s =
      .next { s with response := some (.ok (.flag (decide (lo.toNat ≤ l.toNat ∧ l.toNat ≤ hi.toNat)))) } ∧
    (hi.toNat < lo.toNat → exec (.valLength l lo hi) s = .next { s with response := some (.ok (.flag false)) }) ∧
    (encode (.valLength l lo hi)).op = 0x9

/-- R182: VAL_CAPACITY, `op` 0xA, reads the length of `buf` and nothing else of it. -/
def Obligations.ValCapacityComparesTheLengthOfTheBuffer : Prop :=
  (∀ (buf : Bytes) (n : Word) (s : State),
    exec (.valCapacity buf n) s =
      .next { s with response := some (.ok (.flag (decide (buf.length ≥ n.toNat)))) } ∧
        (encode (.valCapacity buf n)).op = 0xA) ∧
    ∀ (buf buf' : Bytes) (n : Word) (s : State), buf.length = buf'.length →
      exec (.valCapacity buf n) s = exec (.valCapacity buf' n) s

/-! ## Errors and responses -/

/-- R77, R223: every reserved `op` value ends in the fault of code ILLEGAL_OP, whatever the other fields hold. -/
def Obligations.ReservedOperationsFault : Prop :=
  Fault.illegalOp.code = 8 ∧
  (∀ s : State, exec .reservedC s = .fault .illegalOp ∧ exec .reservedD s = .fault .illegalOp ∧
    exec .reservedE s = .fault .illegalOp ∧ exec .reservedF s = .fault .illegalOp) ∧
  ∀ (s : State) (p : Presented) (rest : List Input), s.inputs = .request p :: rest →
    p.unstable = false → p.aliased = false → p.req.buf.length ≤ Config.maxBufBytes →
    p.req.data.length ≤ Config.maxDataBytes → 12 ≤ p.req.op.toNat → step s = .fault .illegalOp

/-- R222: the response codes. -/
def Obligations.ResponseCodesAreNumbered : Prop :=
  (∀ r : Result, (Response.ok r).code = 0) ∧
    (Response.err .malformedHeader).code = 1 ∧ (Response.err .truncatedBuffer).code = 2 ∧
    (Response.err .invalidLength).code = 3 ∧ (Response.err .invalidPayloadLength).code = 4 ∧
    (Response.err .payloadTooLarge).code = 5 ∧ (Response.err .invalidStatus).code = 6 ∧
    Fault.fieldRange.code = 7 ∧ Fault.illegalOp.code = 8 ∧
    (∀ r : Response, r.code.toNat < 9) ∧ ∀ f : Fault, f.code.toNat < 9

/-- R224: which operations can give which codes; none is refused but an encoder whose output does not fit (R46). -/
def Obligations.OperationsGiveOnlyTheirOwnCodes : Prop :=
  ∀ (i : Instr) (s : State),
    (∀ t, exec i s = .next t → ∃ r, t.response = some r ∧ r.code ∈ allowedCodes i) ∧
      (∀ f, exec i s = .fault f → f.code ∈ allowedCodes i) ∧
      ∀ q, exec i s = .refused q → q = .outputTooLong ∧ writesOutput i = true

/-- R26, R76: an OK response carries exactly the fields of its operation, any other none. -/
def Obligations.ResponsesCarryExactlyTheirFields : Prop :=
  ∀ (i : Instr) (s t : State), exec i s = .next t →
    ∃ r, t.response = some r ∧ (r.code = 0 → carries i r) ∧ (r.code ≠ 0 → carriesNothing r)

/-- R227: an error response changes nothing but the response, for every operation. -/
def Obligations.ErrorsChangeNothingButTheResponse : Prop :=
  ∀ (i : Instr) (s t : State) (e : ErrorKind), exec i s = .next t → t.response = some (.err e) →
    t = { s with response := some (.err e) } ∧ ∀ a, Memory.read t.outBuf a = Memory.read s.outBuf a

/-! ## Round trips -/

/-- R126: what ENC_WR wrote, DEC_WR reads back, from the bytes that stand in the output buffer. -/
def Obligations.WriteRequestsRoundTrip : Prop :=
  ∀ (address : Word) (data : Bytes) (be tag : Byte) (s : State), 4 ≤ data.length → data.length ≤ 16380 →
    data.length % 4 = 0 → holds s (13 + data.length) →
      ∃ (out : Bytes) (t : State), exec (.encWr address data be tag) s = .next t ∧
        t.response = some (.ok (.packet out out.length)) ∧
        (∀ a, a < out.length → Memory.read t.outBuf a = out[a]?) ∧
        ∀ u : State, exec (.decWr out) u =
          .next { u with response := some (.ok (.record (.write
            { fmt := 0b01, type := 0, tc := 0, be := be, length := BitVec.ofNat 12 (data.length / 4)
              address := address, tag := some tag, payload := data }))) }

/-- R145: what ENC_RD wrote, DEC_RD reads back. -/
def Obligations.ReadRequestsRoundTrip : Prop :=
  ∀ (address : Word) (tag : Byte) (s : State), holds s 12 →
    ∃ (out : Bytes) (t : State), exec (.encRd address tag) s = .next t ∧
      t.response = some (.ok (.packet out out.length)) ∧
      (∀ a, a < out.length → Memory.read t.outBuf a = out[a]?) ∧
      ∀ u : State, exec (.decRd out) u =
        .next { u with response := some (.ok (.record (.read
          { fmt := 0b00, type := 0, tc := 0, be := 0x00, length := 1, address := address, tag := tag }))) }

/-- R165: what ENC_CPL wrote, DEC_CPL reads back. -/
def Obligations.CompletionsRoundTrip : Prop :=
  ∀ (data : Bytes) (status : BitVec 3) (tag : Byte) (s : State), data.length ≤ 16380 → data.length % 4 = 0 →
    isStatus status.toNat → holds s (12 + data.length) →
      ∃ (out : Bytes) (t : State), exec (.encCpl data status tag) s = .next t ∧
        t.response = some (.ok (.packet out out.length)) ∧
        (∀ a, a < out.length → Memory.read t.outBuf a = out[a]?) ∧
        ∀ u : State, exec (.decCpl out) u =
          .next { u with response := some (.ok (.record (.completion
            { fmt := 0b10, type := 0x0A, tc := 0, be := 0x00, length := BitVec.ofNat 12 (data.length / 4)
              status := status, tag := tag, payload := data }))) }

/-- R127: a write request that decodes is re-encoded to the same bytes exactly when it has TP = 1, TC = 0, every reserved
bit 0, no byte after the tag, and the tag operand is the packet's tag. -/
def Obligations.WriteRequestsReencodeUnderFourConditions : Prop :=
  ∀ (w0 w1 w2 : Word) (rest : Bytes) (g : Byte) (s t : State), isWrite w0 → len w0 ≠ 0 →
    4 * len w0 + bits w2 0 0 ≤ rest.length → holds s (13 + 4 * len w0) →
      let w := writeRecord w0 w1 w2 rest
      exec (.decWr (packet w0 w1 w2 rest)) t = .next { t with response := some (.ok (.record (.write w))) } ∧
        ∃ (out : Bytes) (u : State), exec (.encWr w.address w.payload w.be g) s = .next u ∧
          u.response = some (.ok (.packet out out.length)) ∧
          (out = packet w0 w1 w2 rest ↔
            bits w2 0 0 = 1 ∧ bits w0 23 20 = 0 ∧ bits w2 31 1 = 0 ∧ rest.length = 4 * len w0 + 1 ∧
              w.tag = some g)

/-- R10: under every configuration the spec admits, packets of all three types round-trip, and no buffer is accepted by two
of the three decoders. -/
def Obligations.EveryAdmittedConfigurationRoundTrips : Prop :=
  ∀ c : Config.Codes, codesValid c = true →
    (∀ (address : Word) (data : Bytes) (be tag : Byte) (out : Bytes) (n : Nat),
      encodeWrite c address data be tag = .ok (out, n) →
        decodeWrite c out = .ok
          { fmt := 0b01, type := c.typeWr, tc := 0, be := be, length := BitVec.ofNat 12 (data.length / 4)
            address := address, tag := some tag, payload := data }) ∧
    (∀ (address : Word) (tag : Byte),
      decodeRead c (encodeRead c address tag).1 = .ok
        { fmt := 0b00, type := c.typeRd, tc := 0, be := 0, length := 1, address := address, tag := tag }) ∧
    (∀ (data : Bytes) (status : BitVec 3) (tag : Byte) (out : Bytes) (n : Nat),
      encodeCompletion c data status tag = .ok (out, n) →
        decodeCompletion c out = .ok
          { fmt := c.fmtCpl, type := c.typeCpl, tc := 0, be := 0, length := BitVec.ofNat 12 (data.length / 4)
            status := status, tag := tag, payload := data }) ∧
    (∀ (buf : Bytes) (w : WriteRequest) (q : ReadRequest) (k : Completion),
      ¬ (decodeWrite c buf = .ok w ∧ decodeRead c buf = .ok q) ∧
        ¬ (decodeWrite c buf = .ok w ∧ decodeCompletion c buf = .ok k) ∧
        ¬ (decodeRead c buf = .ok q ∧ decodeCompletion c buf = .ok k))

/-! ## Whole-machine claims -/

/-- The state after reset has the invariant. -/
def Obligations.ResetStateHasTheInvariant : Prop := State.reset.Inv

/-- Every step keeps the invariant: the output buffer is in canonical form and within its capacity, and the response is
well formed: a record is of one packet type with exactly `4 * length` payload bytes (R27), a packet has the length it
reports and stands in the output buffer (R26, R45). -/
def Obligations.EveryStepKeepsTheInvariant : Prop :=
  ∀ s t : State, s.Inv → step s = .next t → t.Inv

/-- R22, R223, R256: while every waiting request is one a correct caller makes, each step takes exactly the oldest input,
gives a response where that is a request, and leaves only such inputs; as many steps as inputs wait take them all; and no
run faults or refuses. That requests and resets wait as inputs is the model's choice (log entries 2 and 9). -/
def Obligations.CorrectCallersAreAlwaysAnswered : Prop :=
  ∀ s : State, s.inputs.all Input.sound = true →
    (∀ x rest, s.inputs = x :: rest → ∃ t, step s = .next t ∧ t.inputs = rest ∧ t.inputs.all Input.sound = true ∧
      ∀ p, x = .request p → ∃ r, t.response = some r) ∧
    (∃ u, Host.Core.run Sys2Proof.core s.inputs.length s = .next u ∧ u.inputs = []) ∧
    ∀ n, RunsSafely n s

/-- R22, R256: a request a correct caller makes is answered by exactly one response in one step, which takes that request
alone. -/
def Obligations.EverySoundRequestIsAnsweredInOneStep : Prop :=
  ∀ (s : State) (p : Presented) (rest : List Input), s.inputs = .request p :: rest → p.sound = true →
    ∃ t r, step s = .next t ∧ t.response = some r ∧ t.inputs = rest
end

