-- ==== Sys2Proof/Laws/Memory.lean ====
section
/-! SUPPORT. The output buffer: reads after a store, and that a store keeps the canonical form and the capacity. -/

namespace Sys2Proof.Machine

@[simp] theorem Memory.read_nil (a : Nat) : Memory.read [] a = none := rfl

theorem cellsFrom_length (bs : Bytes) (a : Nat) : (cellsFrom a bs).length = bs.length := by
  induction bs generalizing a with
  | nil => rfl
  | cons b bs ih => simp [cellsFrom, ih]

theorem cellsFrom_mem {bs : Bytes} {a : Nat} {x : Host.Cell} (h : x ∈ cellsFrom a bs) :
    a ≤ x.1 ∧ x.1 < a + bs.length := by
  induction bs generalizing a with
  | nil => simp [cellsFrom] at h
  | cons b bs ih =>
    rcases List.mem_cons.mp h with rfl | h
    · simp
    · have := ih h
      simp only [List.length_cons]
      omega

theorem cellsFrom_lookup (bs : Bytes) (a k : Nat) :
    (cellsFrom a bs).lookup k = if a ≤ k then bs[k - a]? else none := by
  induction bs generalizing a with
  | nil => simp [cellsFrom]
  | cons b bs ih =>
    rw [cellsFrom, List.lookup_cons, ih]
    by_cases hk : k = a
    · simp [hk]
    · have hb : (k == a) = false := by simpa using hk
      simp only [hb]
      by_cases h : a + 1 ≤ k
      · have : k - a = (k - (a + 1)) + 1 := by omega
        simp [h, show a ≤ k by omega, this]
      · simp [h, show ¬ a ≤ k by omega]

theorem lookup_filter_ge (m : Memory) (n k : Nat) (h : n ≤ k) :
    (m.filter fun c => decide (n ≤ c.1)).lookup k = m.lookup k := by
  induction m with
  | nil => rfl
  | cons c m ih =>
    obtain ⟨a, v⟩ := c
    by_cases hn : n ≤ a
    · simp [hn, List.lookup_cons, ih]
    · have : (k == a) = false := by simp; omega
      simp [hn, List.lookup_cons, ih, this]

/-- R45: after a store, the stored offsets read as the bytes stored and every other offset reads as before. -/
theorem Memory.read_store (out : Bytes) (m : Memory) (a : Nat) :
    Memory.read (Memory.store out m) a = if a < out.length then out[a]? else Memory.read m a := by
  unfold Memory.read Memory.store
  rw [List.lookup_append, cellsFrom_lookup]
  by_cases h : a < out.length
  · simp [h]
  · simp [h, lookup_filter_ge m out.length a (by omega)]

/-- The canonical form, said of all pairs of entries. -/
theorem Memory.wf_iff (m : Memory) : Memory.wf m = true ↔ m.Pairwise fun x y => x.1 < y.1 := by
  match m with
  | [] => simp [Memory.wf]
  | [_] => simp [Memory.wf]
  | (a, x) :: (b, y) :: m =>
    have ih := Memory.wf_iff ((b, y) :: m)
    rw [Memory.wf, Bool.and_eq_true, decide_eq_true_iff, ih, List.pairwise_cons (a := (a, x))]
    constructor
    · rintro ⟨hab, hp⟩
      refine ⟨fun c hc => ?_, hp⟩
      rcases List.mem_cons.mp hc with rfl | hc
      · exact hab
      · exact Nat.lt_trans hab ((List.pairwise_cons.mp hp).1 c hc)
    · rintro ⟨h, hp⟩
      exact ⟨h (b, y) (by simp), hp⟩

theorem cellsFrom_pairwise (bs : Bytes) (a : Nat) : (cellsFrom a bs).Pairwise fun x y => x.1 < y.1 := by
  induction bs generalizing a with
  | nil => simp [cellsFrom]
  | cons b bs ih =>
    exact List.pairwise_cons.mpr ⟨fun c hc => (by have := cellsFrom_mem hc; simp; omega), ih _⟩

/-- Every store keeps the canonical form. -/
theorem Memory.store_wf (out : Bytes) (m : Memory) (h : Memory.wf m = true) :
    Memory.wf (Memory.store out m) = true := by
  rw [Memory.wf_iff] at h ⊢
  refine List.pairwise_append.mpr ⟨cellsFrom_pairwise out 0, h.filter _, fun x hx y hy => ?_⟩
  have h1 := cellsFrom_mem hx
  have h2 := (List.mem_filter.mp hy).2
  simp at h2
  omega

/-- A store of no more bytes than the capacity allows stays within it. -/
theorem Memory.store_within (cap : Option Nat) (out : Bytes) (m : Memory)
    (hc : capacityAllows cap out.length = true) (h : Memory.within cap m = true) :
    Memory.within cap (Memory.store out m) = true := by
  cases cap with
  | none => rfl
  | some n =>
    simp only [capacityAllows, decide_eq_true_iff] at hc
    simp only [Memory.within, List.all_eq_true, decide_eq_true_iff] at h ⊢
    intro c hm
    rcases List.mem_append.mp hm with hm | hm
    · have := cellsFrom_mem hm; omega
    · exact h c (List.mem_filter.mp hm).1

/-- The output buffer after reset is in canonical form. -/
theorem Memory.reset_wf : Memory.wf State.reset.outBuf = true := rfl

end Sys2Proof.Machine
end

