-- ==== Sys2Proof/Laws/Operands.lean ====
section
/-! SUPPORT. The bit fields bit by bit, the fixed fields as plain extractions, dwords and their bytes, slices. -/

namespace Sys2Proof.Machine

/-! ## Bit fields -/

theorem fieldMask_getLsbD (hi lo p : Nat) :
    (fieldMask hi lo).getLsbD p = (decide (p < 32) && decide (p < hi - lo + 1)) := by
  unfold fieldMask
  rw [BitVec.getLsbD_ofNat, Nat.testBit_two_pow_sub_one]

/-- R100 bit by bit: bit `p` of the result is bit `lo + p` of the word, inside the field's width. -/
theorem extractField_getLsbD (w : Word) (hi lo p : Nat) :
    (extractField w hi lo).getLsbD p = (w.getLsbD (lo + p) && decide (p < hi - lo + 1)) := by
  unfold extractField
  rw [BitVec.getLsbD_and, BitVec.getLsbD_ushiftRight, fieldMask_getLsbD]
  by_cases h : p < 32
  · simp [h]
  · simp [h, BitVec.getLsbD_of_ge w (lo + p) (by omega)]

/-- R101 bit by bit: inside the field the bits of the value, outside it the bits of the word. -/
theorem insertField_getLsbD (w v : Word) (hi lo p : Nat) (h : fieldInRange hi lo = true) :
    (insertField w v hi lo).getLsbD p =
      if lo ≤ p ∧ p ≤ hi then v.getLsbD (p - lo) else w.getLsbD p := by
  simp only [fieldInRange, Bool.and_eq_true, decide_eq_true_iff] at h
  unfold insertField
  simp only [BitVec.getLsbD_or, BitVec.getLsbD_and, BitVec.getLsbD_not, BitVec.getLsbD_shiftLeft,
    fieldMask_getLsbD]
  by_cases hp : p < 32
  · by_cases h1 : lo ≤ p
    · by_cases h2 : p ≤ hi
      · simp [hp, h1, h2, show ¬ p < lo by omega, show p - lo < 32 by omega, show p - lo < hi - lo + 1 by omega]
      · simp [hp, h1, h2, show ¬ p < lo by omega, show ¬ p - lo < hi - lo + 1 by omega]
    · simp [hp, h1, show p < lo by omega]
  · have : ¬ (lo ≤ p ∧ p ≤ hi) := by omega
    simp [hp, this, BitVec.getLsbD_of_ge w p (by omega)]

/-- A field at fixed bounds, narrowed to its width, is that part of the word. -/
theorem extractField_narrow (w : Word) (hi lo n : Nat) (h : n = hi - lo + 1) :
    (extractField w hi lo).setWidth n = w.extractLsb' lo n := by
  apply BitVec.eq_of_getLsbD_eq
  intro i hi'
  rw [BitVec.getLsbD_setWidth, extractField_getLsbD, BitVec.getLsbD_extractLsb']
  simp [hi', ← h]

theorem fmtOf_eq (w : Word) : fmtOf w = w.extractLsb' 30 2 := extractField_narrow w 31 30 2 rfl
theorem typeOf_eq (w : Word) : typeOf w = w.extractLsb' 24 6 := extractField_narrow w 29 24 6 rfl
theorem tcOf_eq (w : Word) : tcOf w = w.extractLsb' 20 4 := extractField_narrow w 23 20 4 rfl
theorem beOf_eq (w : Word) : beOf w = w.extractLsb' 12 8 := extractField_narrow w 19 12 8 rfl
theorem lengthOf_eq (w : Word) : lengthOf w = w.extractLsb' 0 12 := extractField_narrow w 11 0 12 rfl
theorem statusOf_eq (w : Word) : statusOf w = w.extractLsb' 0 3 := extractField_narrow w 2 0 3 rfl
theorem tagOf_eq (w : Word) : tagOf w = w.extractLsb' 0 8 := extractField_narrow w 7 0 8 rfl

/-- R63: TP is bit 0 of DW2. -/
theorem tagPresent_eq (w : Word) : tagPresent w = (w.getLsbD 0).toNat := by
  have h : extractField w 0 0 = BitVec.setWidth 32 (BitVec.ofBool (w.getLsbD 0)) := by
    apply BitVec.eq_of_getLsbD_eq
    intro i hi
    rw [extractField_getLsbD, BitVec.getLsbD_setWidth]
    by_cases h0 : i = 0
    · subst h0; simp
    · simp [h0, show ¬ i < 1 by omega]
  rw [tagPresent, h]
  cases w.getLsbD 0 <;> rfl

theorem tagPresent_le (w : Word) : tagPresent w ≤ 1 := by
  rw [tagPresent_eq]
  cases w.getLsbD 0 <;> decide

/-! ## The header the encoders compose -/

theorem insertField_keeps (w v : Word) (hi lo p : Nat) (h : fieldInRange hi lo = true) (hp : p < lo ∨ hi < p) :
    (insertField w v hi lo).getLsbD p = w.getLsbD p := by
  rw [insertField_getLsbD w v hi lo p h, if_neg (by omega)]

/-- The composed Header Word bit by bit (R60, R73). -/
theorem headerWord_getLsbD (fmt : BitVec 2) (type : BitVec 6) (tc : BitVec 4) (be : Byte) (len p : Nat) :
    (headerWord fmt type tc be len).getLsbD p =
      if p < 12 then (BitVec.ofNat 12 len).getLsbD p
      else if p < 20 then be.getLsbD (p - 12)
      else if p < 24 then tc.getLsbD (p - 20)
      else if p < 30 then type.getLsbD (p - 24)
      else fmt.getLsbD (p - 30) := by
  unfold headerWord
  simp only [insertField_getLsbD _ _ 31 30 _ rfl, insertField_getLsbD _ _ 29 24 _ rfl,
    insertField_getLsbD _ _ 23 20 _ rfl, insertField_getLsbD _ _ 19 12 _ rfl, insertField_getLsbD _ _ 11 0 _ rfl,
    BitVec.getLsbD_setWidth, BitVec.getLsbD_ofNat]
  by_cases h1 : p < 12
  · simp [h1, show p ≤ 11 by omega, show p < 32 by omega]
  by_cases h2 : p < 20
  · simp [h1, h2, show ¬ p ≤ 11 by omega, show 12 ≤ p by omega, show p ≤ 19 by omega, show p - 12 < 32 by omega]
  by_cases h3 : p < 24
  · simp [h1, h2, h3, show ¬ p ≤ 11 by omega, show ¬ p ≤ 19 by omega, show 20 ≤ p by omega, show p ≤ 23 by omega,
      show p - 20 < 32 by omega]
  by_cases h4 : p < 30
  · simp [h1, h2, h3, h4, show ¬ p ≤ 11 by omega, show ¬ p ≤ 19 by omega, show ¬ p ≤ 23 by omega,
      show 24 ≤ p by omega, show p ≤ 29 by omega, show p - 24 < 32 by omega]
  by_cases h5 : p < 32
  · simp [h1, h2, h3, h4, show ¬ p ≤ 11 by omega, show ¬ p ≤ 19 by omega, show ¬ p ≤ 23 by omega,
      show ¬ p ≤ 29 by omega, show 30 ≤ p by omega, show p ≤ 31 by omega, show p - 30 < 32 by omega]
  · simp [h1, h2, h3, h4, show ¬ p ≤ 11 by omega, show ¬ p ≤ 19 by omega, show ¬ p ≤ 23 by omega,
      show ¬ p ≤ 29 by omega, show ¬ p ≤ 31 by omega, BitVec.getLsbD_of_ge fmt (p - 30) (by omega)]

section HeaderFields

variable (fmt : BitVec 2) (type : BitVec 6) (tc : BitVec 4) (be : Byte) (len : Nat)

@[simp] theorem fmtOf_headerWord : fmtOf (headerWord fmt type tc be len) = fmt := by
  rw [fmtOf_eq]
  apply BitVec.eq_of_getLsbD_eq
  intro i hi
  rw [BitVec.getLsbD_extractLsb', headerWord_getLsbD]
  simp [hi, show ¬ 30 + i < 12 by omega, show ¬ 30 + i < 20 by omega, show ¬ 30 + i < 24 by omega,
    show ¬ 30 + i < 30 by omega]

@[simp] theorem typeOf_headerWord : typeOf (headerWord fmt type tc be len) = type := by
  rw [typeOf_eq]
  apply BitVec.eq_of_getLsbD_eq
  intro i hi
  rw [BitVec.getLsbD_extractLsb', headerWord_getLsbD]
  simp [hi, show ¬ 24 + i < 12 by omega, show ¬ 24 + i < 20 by omega, show ¬ 24 + i < 24 by omega,
    show 24 + i < 30 by omega]

@[simp] theorem tcOf_headerWord : tcOf (headerWord fmt type tc be len) = tc := by
  rw [tcOf_eq]
  apply BitVec.eq_of_getLsbD_eq
  intro i hi
  rw [BitVec.getLsbD_extractLsb', headerWord_getLsbD]
  simp [hi, show ¬ 20 + i < 12 by omega, show ¬ 20 + i < 20 by omega, show 20 + i < 24 by omega]

@[simp] theorem beOf_headerWord : beOf (headerWord fmt type tc be len) = be := by
  rw [beOf_eq]
  apply BitVec.eq_of_getLsbD_eq
  intro i hi
  rw [BitVec.getLsbD_extractLsb', headerWord_getLsbD]
  simp [hi, show ¬ 12 + i < 12 by omega, show 12 + i < 20 by omega]

@[simp] theorem lengthOf_headerWord : lengthOf (headerWord fmt type tc be len) = BitVec.ofNat 12 len := by
  rw [lengthOf_eq]
  apply BitVec.eq_of_getLsbD_eq
  intro i hi
  rw [BitVec.getLsbD_extractLsb', headerWord_getLsbD]
  simp [hi]

end HeaderFields

/-! ## Dwords and bytes -/

theorem byteAt_of_lt (s : Bytes) (i : Nat) (h : i < s.length) : byteAt s i = s[i] := by
  simp [byteAt, h]

/-- Bytes before the end do not depend on what follows. -/
theorem byteAt_append (s t : Bytes) (i : Nat) (h : i < s.length) : byteAt (s ++ t) i = byteAt s i := by
  simp [byteAt, List.getElem?_append_left h]

theorem dw_append (s t : Bytes) (k : Nat) (h : 4 * k + 3 < s.length) : dw (s ++ t) k = dw s k := by
  unfold dw
  rw [byteAt_append _ _ _ h, byteAt_append _ _ (4 * k + 2) (by omega), byteAt_append _ _ (4 * k + 1) (by omega),
    byteAt_append _ _ (4 * k) (by omega)]

@[simp] theorem le32_length (v : Word) : (le32 v).length = 4 := rfl

/-- R42: a dword is read back from its four bytes. -/
theorem append_le32 (v : Word) :
    (v.extractLsb' 24 8 ++ v.extractLsb' 16 8 ++ v.extractLsb' 8 8 ++ v.extractLsb' 0 8 : Word) = v := by
  apply BitVec.eq_of_getLsbD_eq
  intro i hi
  simp only [BitVec.getLsbD_append, BitVec.getLsbD_extractLsb']
  by_cases h1 : i < 8
  · simp [h1]
  by_cases h2 : i < 16
  · simp [h1, show i - 8 < 8 by omega, show 8 + (i - 8) = i by omega]
  by_cases h3 : i < 24
  · simp [h1, show ¬ i - 8 < 8 by omega, show i - 8 - 8 < 8 by omega, show 16 + (i - 8 - 8) = i by omega]
  · simp [h1, show ¬ i - 8 < 8 by omega, show ¬ i - 8 - 8 < 8 by omega, show i - 8 - 8 - 8 < 8 by omega,
      show 24 + (i - 8 - 8 - 8) = i by omega]

theorem dw_le32_zero (v : Word) (t : Bytes) : dw (le32 v ++ t) 0 = v := append_le32 v

theorem dw_le32_one (u v : Word) (t : Bytes) : dw (le32 u ++ (le32 v ++ t)) 1 = v := append_le32 v

theorem dw_le32_two (u v w : Word) (t : Bytes) : dw (le32 u ++ (le32 v ++ (le32 w ++ t))) 2 = w := append_le32 w

/-! ## Slices -/

theorem slice_length (s : Bytes) (a b : Nat) (h : b ≤ s.length) : (slice s a b).length = b - a := by
  simp [slice, h]

theorem slice_append (s t : Bytes) (a b : Nat) (h : b ≤ s.length) : slice (s ++ t) a b = slice s a b := by
  unfold slice
  rw [List.take_append_of_le_length h]

/-- A slice that covers exactly the middle of three pieces. -/
theorem slice_middle (s t u : Bytes) (a b : Nat) (ha : a = s.length) (hb : b = s.length + t.length) :
    slice (s ++ t ++ u) a b = t := by
  subst ha hb
  unfold slice
  rw [List.take_append_of_le_length (by simp), ← List.length_append, List.take_length, List.drop_left]

end Sys2Proof.Machine
end

