-- ==== Sys2Proof/Laws/State.lean ====
section
/-! SUPPORT. What each update of the state leaves in each field, so that no later proof unfolds a record update. -/

namespace Sys2Proof.Machine

variable (s : State) (r : Response) (out : Bytes) (olen : Nat) (p : Presented) (rest : List Input)

@[simp] theorem State.answered_inputs : (s.answered r).inputs = s.inputs := rfl
@[simp] theorem State.answered_response : (s.answered r).response = some r := rfl
@[simp] theorem State.answered_outBuf : (s.answered r).outBuf = s.outBuf := rfl
@[simp] theorem State.answered_outCap : (s.answered r).outCap = s.outCap := rfl

@[simp] theorem State.delivered_inputs : (s.delivered out olen).inputs = s.inputs := rfl
@[simp] theorem State.delivered_response :
    (s.delivered out olen).response = some (.ok (.packet out olen)) := rfl
@[simp] theorem State.delivered_outBuf : (s.delivered out olen).outBuf = Memory.store out s.outBuf := rfl
@[simp] theorem State.delivered_outCap : (s.delivered out olen).outCap = s.outCap := rfl

@[simp] theorem accept_inputs : (accept p rest).inputs = rest := rfl
@[simp] theorem accept_response : (accept p rest).response = none := rfl
@[simp] theorem accept_outBuf : (accept p rest).outBuf = p.outBuf := rfl
@[simp] theorem accept_outCap : (accept p rest).outCap = p.outCap := rfl

@[simp] theorem takeReset_inputs (f : Option Presented) : (takeReset f rest s).inputs = rest := by cases f <;> rfl
@[simp] theorem takeReset_response (f : Option Presented) : (takeReset f rest s).response = none := by
  cases f <;> rfl
@[simp] theorem takeReset_some_outBuf : (takeReset (some p) rest s).outBuf = p.outBuf := rfl
@[simp] theorem takeReset_none_outBuf : (takeReset none rest s).outBuf = s.outBuf := rfl
@[simp] theorem takeReset_some_outCap : (takeReset (some p) rest s).outCap = p.outCap := rfl
@[simp] theorem takeReset_none_outCap : (takeReset none rest s).outCap = s.outCap := rfl

@[simp] theorem reset_inputs : State.reset.inputs = [] := rfl
@[simp] theorem reset_response : State.reset.response = none := rfl
@[simp] theorem reset_outBuf : State.reset.outBuf = [] := rfl
@[simp] theorem reset_outCap : State.reset.outCap = none := rfl

variable (nbits w : Nat)

@[simp] theorem withFetchWord_inputs :
    (s.withFetchWord nbits w).inputs = .request (plainly (tableRequest nbits w)) :: s.inputs := rfl
@[simp] theorem withFetchWord_response : (s.withFetchWord nbits w).response = s.response := rfl
@[simp] theorem withFetchWord_outBuf : (s.withFetchWord nbits w).outBuf = s.outBuf := rfl
@[simp] theorem withFetchWord_outCap : (s.withFetchWord nbits w).outCap = s.outCap := rfl

end Sys2Proof.Machine
end

