-- ==== Sys2Proof/Laws/Ops.lean ====
section
/-! SUPPORT. What each shared operation can do, said once: the ends of an operation, admission, fetching, and from them one
inversion lemma for exec and one for step. -/

namespace Sys2Proof.Machine

/-! ## The ends of an operation -/

@[simp] theorem reply_eq (r : Result) (s : State) : reply r s = .next (s.answered (.ok r)) := rfl

@[simp] theorem raise_eq (e : ErrorKind) (s : State) : raise e s = .next (s.answered (.err e)) := rfl

@[simp] theorem respond_ok (v : Result) (s : State) : respond (.ok v) s = .next (s.answered (.ok v)) := rfl

@[simp] theorem respond_error (e : ErrorKind) (s : State) :
    respond (.error e) s = .next (s.answered (.err e)) := rfl

@[simp] theorem emit_error (e : ErrorKind) (s : State) : emit (.error e) s = .next (s.answered (.err e)) := rfl

@[simp] theorem violate_eq (f : Fault) (s : State) : violate f s = .fault f := rfl

theorem deliver_of_fits {out : Bytes} {olen : Nat} {s : State} (h : capacityAllows s.outCap out.length = true) :
    deliver out olen s = .next (s.delivered out olen) := by
  simp [deliver, h]

theorem deliver_of_too_long {out : Bytes} {olen : Nat} {s : State}
    (h : capacityAllows s.outCap out.length = false) : deliver out olen s = .refused .outputTooLong := by
  simp [deliver, h]

/-- The response a decoder's result is (R221). -/
def responseOf : Except ErrorKind Result → Response
  | .ok v    => .ok v
  | .error e => .err e

@[simp] theorem responseOf_ok (v : Result) : responseOf (.ok v) = .ok v := rfl

@[simp] theorem responseOf_error (e : ErrorKind) : responseOf (.error e) = .err e := rfl

/-- A decoder always ends in a response. -/
theorem respond_eq (r : Except ErrorKind Result) (s : State) : respond r s = .next (s.answered (responseOf r)) := by
  cases r <;> rfl

/-- An encoder that goes on either delivered a packet that fits, or answered an error. -/
theorem emit_next {r : Except ErrorKind (Bytes × Nat)} {s t : State} (h : emit r s = .next t) :
    (∃ out olen, r = .ok (out, olen) ∧ capacityAllows s.outCap out.length = true ∧ t = s.delivered out olen) ∨
      ∃ e, r = .error e ∧ t = s.answered (.err e) := by
  cases r with
  | error e => exact .inr ⟨e, rfl, by simpa using h.symm⟩
  | ok p =>
    obtain ⟨out, olen⟩ := p
    by_cases hc : capacityAllows s.outCap out.length = true
    · refine .inl ⟨out, olen, rfl, hc, ?_⟩
      have := (deliver_of_fits (olen := olen) hc).symm.trans h
      simpa using this.symm
    · have := (deliver_of_too_long (olen := olen) (by simpa using hc)).symm.trans h
      cases this

/-! ## Taking an input -/

/-- An admitted request broke none of R51's conditions, and decodes. -/
theorem admission_ok_iff (p : Presented) (i : Instr) :
    admission p = .ok i ↔ p.unstable = false ∧ p.aliased = false ∧ decode p.req = .ok i := by
  unfold admission
  cases hu : p.unstable <;> cases ha : p.aliased <;> simp
  split <;> simp_all

/-- What a step finds to do, by the oldest input. -/
theorem fetch_nil {s : State} (h : s.inputs = []) : fetch s = .idle := by simp [fetch, h]

theorem fetch_reset {s : State} {f : Option Presented} {rest : List Input} (h : s.inputs = .reset f :: rest) :
    fetch s = .reset (takeReset f rest s) := by simp [fetch, h]

theorem fetch_request {s : State} {p : Presented} {rest : List Input} (h : s.inputs = .request p :: rest) :
    fetch s = match admission p with
      | .ok i    => .run i (accept p rest)
      | .error r => .refuse r := by
  unfold fetch
  cases ha : admission p <;> simp only [h, ha]

theorem step_idle {s : State} (h : s.inputs = []) : step s = .next s := by simp [step, fetch_nil h]

theorem step_reset {s : State} {f : Option Presented} {rest : List Input} (h : s.inputs = .reset f :: rest) :
    step s = .next (takeReset f rest s) := by simp [step, fetch_reset h]

theorem step_admitted {s : State} {p : Presented} {rest : List Input} {i : Instr}
    (h : s.inputs = .request p :: rest) (ha : admission p = .ok i) : step s = exec i (accept p rest) := by
  simp [step, fetch_request h, ha]

theorem step_refused {s : State} {p : Presented} {rest : List Input} {r : Refusal}
    (h : s.inputs = .request p :: rest) (ha : admission p = .error r) : step s = .refused r := by
  simp [step, fetch_request h, ha]

/-! ## What step can do -/

/-- A next state of step: nothing waited, a reset was taken, or an admitted request was performed. -/
theorem step_next {s t : State} (h : step s = .next t) :
    (s.inputs = [] ∧ t = s) ∨
      (∃ f rest, s.inputs = .reset f :: rest ∧ t = takeReset f rest s) ∨
      ∃ p rest i, s.inputs = .request p :: rest ∧ admission p = .ok i ∧ exec i (accept p rest) = .next t := by
  rcases hi : s.inputs with - | ⟨x, rest⟩
  · rw [step_idle hi] at h
    exact .inl ⟨rfl, by simpa using h.symm⟩
  cases x with
  | reset f =>
    rw [step_reset hi] at h
    exact .inr (.inl ⟨f, rest, rfl, by simpa using h.symm⟩)
  | request p =>
    cases ha : admission p with
    | error r => rw [step_refused hi ha] at h; cases h
    | ok i =>
      rw [step_admitted hi ha] at h
      exact .inr (.inr ⟨p, rest, i, rfl, ha, h⟩)

end Sys2Proof.Machine
end

