-- ==== Sys2Proof/Laws/Codec.lean ====
section
/-! SUPPORT. One spec lemma per codec function: what a decoder's record satisfies, what an encoder's packet is, and that
every response exec gives is well formed. -/

namespace Sys2Proof.Machine

/-! ## Validators as propositions -/

@[simp] theorem bufferHasCapacity_iff (buf : Bytes) (n : Nat) :
    bufferHasCapacity buf n = true ↔ n ≤ buf.length := by simp [bufferHasCapacity]

@[simp] theorem lengthInRange_iff (n lo hi : Nat) : lengthInRange n lo hi = true ↔ lo ≤ n ∧ n ≤ hi := by
  simp [lengthInRange]

@[simp] theorem formatMatches_iff (w : Word) (f : BitVec 2) (t : BitVec 6) :
    formatMatches w f t = true ↔ fmtOf w = f ∧ typeOf w = t := by simp [formatMatches]

@[simp] theorem fieldInRange_iff (hi lo : Nat) : fieldInRange hi lo = true ↔ lo ≤ hi ∧ hi ≤ 31 := by
  simp [fieldInRange]

@[simp] theorem capacityAllows_iff (cap : Option Nat) (n : Nat) :
    capacityAllows cap n = true ↔ ∀ k, cap = some k → n ≤ k := by
  cases cap <;> simp [capacityAllows]

/-- R122, R161: a 12-bit Length never exceeds MAX_LEN. -/
theorem lengthOf_le (w : Word) : (lengthOf w).toNat ≤ maxLen := by
  have := (lengthOf w).isLt
  simp only [maxLen]
  omega

/-! ## Decoders -/

/-- DEC_WR succeeds exactly under its checks, and then gives this record (R120). -/
theorem decodeWrite_ok_iff (c : Config.Codes) (buf : Bytes) (r : WriteRequest) :
    decodeWrite c buf = .ok r ↔
      12 ≤ buf.length ∧ fmtOf (dw buf 0) = fmtWr ∧ typeOf (dw buf 0) = c.typeWr ∧
        1 ≤ (lengthOf (dw buf 0)).toNat ∧
        12 + 4 * (lengthOf (dw buf 0)).toNat + tagPresent (dw buf 2) ≤ buf.length ∧
        r =
          { fmt := fmtOf (dw buf 0), type := typeOf (dw buf 0), tc := tcOf (dw buf 0), be := beOf (dw buf 0)
            length := lengthOf (dw buf 0), address := dw buf 1
            tag :=
              if tagPresent (dw buf 2) = 1 then some (byteAt buf (12 + 4 * (lengthOf (dw buf 0)).toNat)) else none
            payload := slice buf 12 (12 + 4 * (lengthOf (dw buf 0)).toNat) } := by
  have hL := lengthOf_le (dw buf 0)
  unfold decodeWrite
  simp only [Bool.not_eq_true', ← Bool.not_eq_true, bufferHasCapacity_iff, formatMatches_iff, lengthInRange_iff,
    headerSize]
  by_cases h1 : 12 ≤ buf.length
  swap; · simp [h1]
  by_cases h2 : fmtOf (dw buf 0) = fmtWr ∧ typeOf (dw buf 0) = c.typeWr
  swap; · simp only [h1, h2, not_true, not_false_iff, if_true, if_false]; simp; tauto
  by_cases h3 : 1 ≤ (lengthOf (dw buf 0)).toNat
  swap; · simp [h1, h2, h3]
  by_cases h4 : 12 + 4 * (lengthOf (dw buf 0)).toNat + tagPresent (dw buf 2) ≤ buf.length
  swap; · simp [h1, h2, h3, h4, hL]
  simp [h1, h2, h3, h4, hL, eq_comm]

/-- DEC_RD succeeds exactly under its checks, and then gives this record (R140). -/
theorem decodeRead_ok_iff (c : Config.Codes) (buf : Bytes) (r : ReadRequest) :
    decodeRead c buf = .ok r ↔
      12 ≤ buf.length ∧ fmtOf (dw buf 0) = fmtRd ∧ typeOf (dw buf 0) = c.typeRd ∧
        (lengthOf (dw buf 0)).toNat = 1 ∧
        r =
          { fmt := fmtOf (dw buf 0), type := typeOf (dw buf 0), tc := tcOf (dw buf 0), be := beOf (dw buf 0)
            length := 1, address := dw buf 1, tag := tagOf (dw buf 2) } := by
  unfold decodeRead
  simp only [Bool.not_eq_true', ← Bool.not_eq_true, bufferHasCapacity_iff, formatMatches_iff, lengthInRange_iff,
    readSize]
  by_cases h1 : 12 ≤ buf.length
  swap; · simp [h1]
  by_cases h2 : fmtOf (dw buf 0) = fmtRd ∧ typeOf (dw buf 0) = c.typeRd
  swap; · simp only [h1, h2, not_true, not_false_iff, if_true, if_false]; simp; tauto
  by_cases h3 : (lengthOf (dw buf 0)).toNat = 1
  · simp [h1, h2, h3, eq_comm]
  · have : ¬ (1 ≤ (lengthOf (dw buf 0)).toNat ∧ (lengthOf (dw buf 0)).toNat ≤ 1) := by omega
    simp [h1, h2, h3, this]

/-- DEC_CPL succeeds exactly under its checks, and then gives this record (R160). -/
theorem decodeCompletion_ok_iff (c : Config.Codes) (buf : Bytes) (r : Completion) :
    decodeCompletion c buf = .ok r ↔
      12 ≤ buf.length ∧ fmtOf (dw buf 0) = c.fmtCpl ∧ typeOf (dw buf 0) = c.typeCpl ∧
        statusRecognized c (statusOf (dw buf 1)) = true ∧
        12 + 4 * (lengthOf (dw buf 0)).toNat ≤ buf.length ∧
        r =
          { fmt := fmtOf (dw buf 0), type := typeOf (dw buf 0), tc := tcOf (dw buf 0), be := beOf (dw buf 0)
            length := lengthOf (dw buf 0), status := statusOf (dw buf 1), tag := tagOf (dw buf 2)
            payload := slice buf 12 (12 + 4 * (lengthOf (dw buf 0)).toNat) } := by
  have hL := lengthOf_le (dw buf 0)
  unfold decodeCompletion
  simp only [Bool.not_eq_true', ← Bool.not_eq_true, bufferHasCapacity_iff, formatMatches_iff, lengthInRange_iff,
    headerSize]
  by_cases h1 : 12 ≤ buf.length
  swap; · simp [h1]
  by_cases h2 : fmtOf (dw buf 0) = c.fmtCpl ∧ typeOf (dw buf 0) = c.typeCpl
  swap; · simp only [h1, h2, not_true, not_false_iff, if_true, if_false]; simp; tauto
  by_cases h3 : statusRecognized c (statusOf (dw buf 1)) = true
  swap; · simp [h1, h2, h3, hL]
  by_cases h4 : 12 + 4 * (lengthOf (dw buf 0)).toNat ≤ buf.length
  swap; · simp [h1, h2, h3, h4, hL]
  simp [h1, h2, h3, h4, hL, eq_comm]

theorem decodeWrite_wf {c : Config.Codes} {buf : Bytes} {r : WriteRequest} (h : decodeWrite c buf = .ok r) :
    (Record.write r).wf c = true := by
  obtain ⟨h1, hf, ht, hl, hc, rfl⟩ := (decodeWrite_ok_iff c buf r).mp h
  have := slice_length buf 12 (12 + 4 * (lengthOf (dw buf 0)).toNat) (by omega)
  simp [Record.wf, hf, ht, hl, this]

theorem decodeRead_wf {c : Config.Codes} {buf : Bytes} {r : ReadRequest} (h : decodeRead c buf = .ok r) :
    (Record.read r).wf c = true := by
  obtain ⟨h1, hf, ht, hl, rfl⟩ := (decodeRead_ok_iff c buf r).mp h
  simp [Record.wf, hf, ht]

theorem decodeCompletion_wf {c : Config.Codes} {buf : Bytes} {r : Completion}
    (h : decodeCompletion c buf = .ok r) : (Record.completion r).wf c = true := by
  obtain ⟨h1, hf, ht, hs, hc, rfl⟩ := (decodeCompletion_ok_iff c buf r).mp h
  have := slice_length buf 12 (12 + 4 * (lengthOf (dw buf 0)).toNat) (by omega)
  have hs' : c.statuses.contains (statusOf (dw buf 1)) = true := hs
  simp [Record.wf, hf, ht, this]
  simpa using hs'

/-- R200, R201: DEC_ANY is the decoder its Format picks, with the kind of that decoder's record. -/
theorem decodeAny_ok {c : Config.Codes} {buf : Bytes} {k : PacketKind} {r : Record}
    (h : decodeAny c buf = .ok (k, r)) :
    k = r.kind ∧
      ((∃ q, r = .read q ∧ decodeRead c buf = .ok q) ∨ (∃ q, r = .write q ∧ decodeWrite c buf = .ok q) ∨
        ∃ q, r = .completion q ∧ decodeCompletion c buf = .ok q) := by
  unfold decodeAny at h
  split at h
  · cases h
  dsimp only at h
  split at h
  · cases hd : decodeRead c buf <;> simp [hd, Except.map] at h
    obtain ⟨rfl, rfl⟩ := h
    exact ⟨rfl, .inl ⟨_, rfl, rfl⟩⟩
  split at h
  · cases hd : decodeWrite c buf <;> simp [hd, Except.map] at h
    obtain ⟨rfl, rfl⟩ := h
    exact ⟨rfl, .inr (.inl ⟨_, rfl, rfl⟩)⟩
  split at h
  · cases hd : decodeCompletion c buf <;> simp [hd, Except.map] at h
    obtain ⟨rfl, rfl⟩ := h
    exact ⟨rfl, .inr (.inr ⟨_, rfl, rfl⟩)⟩
  · cases h

theorem decodeAny_wf {c : Config.Codes} {buf : Bytes} {k : PacketKind} {r : Record}
    (h : decodeAny c buf = .ok (k, r)) : r.wf c = true ∧ k = r.kind := by
  obtain ⟨hk, ⟨q, rfl, hq⟩ | ⟨q, rfl, hq⟩ | ⟨q, rfl, hq⟩⟩ := decodeAny_ok h
  · exact ⟨decodeRead_wf hq, hk⟩
  · exact ⟨decodeWrite_wf hq, hk⟩
  · exact ⟨decodeCompletion_wf hq, hk⟩

/-! ## Encoders -/

/-- ENC_WR succeeds exactly on a positive multiple of 4 bytes up to 16380, and then gives this packet (R123). -/
theorem encodeWrite_ok_iff (c : Config.Codes) (address : Word) (data : Bytes) (be tag : Byte) (p : Bytes × Nat) :
    encodeWrite c address data be tag = .ok p ↔
      4 ≤ data.length ∧ data.length ≤ 16380 ∧ data.length % 4 = 0 ∧
        p = (le32 (headerWord fmtWr c.typeWr encTc be (data.length / 4)) ++ le32 address ++ le32 1 ++ data ++ [tag],
          13 + data.length) := by
  unfold encodeWrite
  simp only [Bool.not_eq_true', ← Bool.not_eq_true, lengthInRange_iff, maxLen]
  by_cases h1 : data.length = 0 ∨ data.length % 4 ≠ 0
  · simp only [h1, if_true]
    constructor
    · intro h; cases h
    · rintro ⟨h, h', h'', -⟩; omega
  rw [if_neg h1]
  by_cases h2 : 1 ≤ data.length / 4 ∧ data.length / 4 ≤ 4095
  · have : 4 ≤ data.length ∧ data.length ≤ 16380 ∧ data.length % 4 = 0 := by omega
    simp [h2, this, eq_comm]
  · have : ¬ data.length ≤ 16380 := by omega
    simp [h2, this]

/-- ENC_CPL succeeds exactly on a multiple of 4 bytes up to 16380 with a recognized status (R162, R164). -/
theorem encodeCompletion_ok_iff (c : Config.Codes) (data : Bytes) (status : BitVec 3) (tag : Byte) (p : Bytes × Nat) :
    encodeCompletion c data status tag = .ok p ↔
      data.length ≤ 16380 ∧ data.length % 4 = 0 ∧ statusRecognized c status = true ∧
        p = (le32 (headerWord c.fmtCpl c.typeCpl encTc encBeCpl (data.length / 4)) ++ le32 (status.setWidth 32) ++
          le32 (tag.setWidth 32) ++ data, 12 + data.length) := by
  unfold encodeCompletion
  simp only [Bool.not_eq_true', ← Bool.not_eq_true, lengthInRange_iff, maxLen]
  by_cases h1 : data.length % 4 = 0
  swap; · simp [h1]
  by_cases h2 : data.length / 4 ≤ 4095
  swap; · simp [h1, h2, show ¬ data.length ≤ 16380 by omega]
  by_cases h3 : statusRecognized c status = true
  · simp [h1, h2, h3, show data.length ≤ 16380 by omega, eq_comm]
  · simp [h1, h2, h3]

/-- R45, R142: every packet an encoder gives has the length it reports. -/
theorem encodeWrite_length {c : Config.Codes} {address : Word} {data : Bytes} {be tag : Byte} {out : Bytes} {n : Nat}
    (h : encodeWrite c address data be tag = .ok (out, n)) : n = out.length ∧ out.length = 13 + data.length := by
  obtain ⟨-, -, -, hp⟩ := (encodeWrite_ok_iff ..).mp h
  cases hp
  simp
  omega

theorem encodeRead_length (c : Config.Codes) (address : Word) (tag : Byte) :
    (encodeRead c address tag).2 = (encodeRead c address tag).1.length ∧
      (encodeRead c address tag).1.length = 12 := ⟨rfl, rfl⟩

theorem encodeCompletion_length {c : Config.Codes} {data : Bytes} {status : BitVec 3} {tag : Byte} {out : Bytes}
    {n : Nat} (h : encodeCompletion c data status tag = .ok (out, n)) :
    n = out.length ∧ out.length = 12 + data.length := by
  obtain ⟨-, -, -, hp⟩ := (encodeCompletion_ok_iff ..).mp h
  cases hp
  simp
  omega

/-! ## What exec can do -/

/-- A next state of exec: a response without a packet, and nothing else changed; or a packet of the length it reports, that
fits, delivered by one of the operations that write output. -/
theorem exec_next {i : Instr} {s t : State} (h : exec i s = .next t) :
    (∃ r, t = s.answered r ∧ r.out = none ∧ r.olen = none) ∨
      ∃ out olen, writesOutput i = true ∧ olen = out.length ∧ capacityAllows s.outCap out.length = true ∧
        t = s.delivered out olen := by
  have enc : ∀ r : Except ErrorKind (Bytes × Nat), writesOutput i = true →
      (∀ out n, r = .ok (out, n) → n = out.length) → emit r s = .next t →
      (∃ r, t = s.answered r ∧ r.out = none ∧ r.olen = none) ∨
        ∃ out olen, writesOutput i = true ∧ olen = out.length ∧ capacityAllows s.outCap out.length = true ∧
          t = s.delivered out olen := by
    intro r hi hl hr
    rcases emit_next hr with ⟨out, olen, hok, hc, rfl⟩ | ⟨e, -, rfl⟩
    · exact .inr ⟨out, olen, hi, hl _ _ hok, hc, rfl⟩
    · exact .inl ⟨_, rfl, rfl, rfl⟩
  have field : ∀ (b : Bool) (w : Word), (if b then reply (.word w) s else violate .fieldRange s) = .next t →
      ∃ r, t = s.answered r ∧ r.out = none ∧ r.olen = none := by
    intro b w hb
    cases b <;> simp at hb
    exact ⟨_, hb.symm, rfl, rfl⟩
  have dec : ∀ r : Except ErrorKind Result, (responseOf r).out = none → (responseOf r).olen = none →
      respond r s = .next t → ∃ r, t = s.answered r ∧ r.out = none ∧ r.olen = none := by
    intro r ho hn hr
    rw [respond_eq] at hr
    exact ⟨_, by simpa using hr.symm, ho, hn⟩
  cases i with
  | extract => exact .inl (field _ _ h)
  | insert => exact .inl (field _ _ h)
  | decWr buf => exact .inl (dec _ (by cases decodeWrite codes buf <;> rfl) (by cases decodeWrite codes buf <;> rfl) h)
  | decRd buf => exact .inl (dec _ (by cases decodeRead codes buf <;> rfl) (by cases decodeRead codes buf <;> rfl) h)
  | decCpl buf =>
    exact .inl (dec _ (by cases decodeCompletion codes buf <;> rfl) (by cases decodeCompletion codes buf <;> rfl) h)
  | decAny buf => exact .inl (dec _ (by cases decodeAny codes buf <;> rfl) (by cases decodeAny codes buf <;> rfl) h)
  | encWr => exact enc _ rfl (fun _ _ hok => (encodeWrite_length hok).1) h
  | encRd a g => exact enc (.ok (encodeRead codes a g)) rfl (fun _ _ hok => by cases hok; rfl) h
  | encCpl => exact enc _ rfl (fun _ _ hok => (encodeCompletion_length hok).1) h
  | valFormat => exact .inl ⟨_, by simpa [exec, execValFormat] using h.symm, rfl, rfl⟩
  | valLength => exact .inl ⟨_, by simpa [exec, execValLength] using h.symm, rfl, rfl⟩
  | valCapacity => exact .inl ⟨_, by simpa [exec, execValCapacity] using h.symm, rfl, rfl⟩
  | reservedC => simp [exec, execReservedC] at h
  | reservedD => simp [exec, execReservedD] at h
  | reservedE => simp [exec, execReservedE] at h
  | reservedF => simp [exec, execReservedF] at h

end Sys2Proof.Machine
end

