-- ==== Sys2Proof/Laws/PerInstr.lean ====
section
/-! SUPPORT. One statement about the encoding of every operation (R75, R76), proved constructor by constructor: the request
that presents it carries its `op`, is read back as it, and can be presented exactly when the operation is well formed. -/

namespace Sys2Proof.Laws.Encoding

/-- What the encoder owes the decoder for one operation. -/
def Statement (i : Instr) : Prop :=
  (encode i).op = i.opcode ∧ decodeFields (encode i) = i ∧
    (i.wellFormed = true ↔
      Config.bufFits (encode i).buf.length = true ∧ Config.dataFits (encode i).data.length = true)

theorem bufFits_zero : Config.bufFits 0 = true := rfl

theorem dataFits_zero : Config.dataFits 0 = true := rfl

theorem extract (word : Word) (hi lo : Byte) : Statement (.extract word hi lo) :=
  ⟨rfl, rfl, by simp [Instr.wellFormed, encode, blankRequest, bufFits_zero, dataFits_zero]⟩

theorem insert (word value : Word) (hi lo : Byte) : Statement (.insert word value hi lo) :=
  ⟨rfl, rfl, by simp [Instr.wellFormed, encode, blankRequest, bufFits_zero, dataFits_zero]⟩

theorem decWr (buf : Bytes) : Statement (.decWr buf) :=
  ⟨rfl, rfl, by simp [Instr.wellFormed, encode, blankRequest, dataFits_zero]⟩

theorem encWr (address : Word) (data : Bytes) (byteEnable tag : Byte) :
    Statement (.encWr address data byteEnable tag) :=
  ⟨rfl, rfl, by simp [Instr.wellFormed, encode, blankRequest, bufFits_zero]⟩

theorem decRd (buf : Bytes) : Statement (.decRd buf) :=
  ⟨rfl, rfl, by simp [Instr.wellFormed, encode, blankRequest, dataFits_zero]⟩

theorem encRd (address : Word) (tag : Byte) : Statement (.encRd address tag) :=
  ⟨rfl, rfl, by simp [Instr.wellFormed, encode, blankRequest, bufFits_zero, dataFits_zero]⟩

theorem decCpl (buf : Bytes) : Statement (.decCpl buf) :=
  ⟨rfl, rfl, by simp [Instr.wellFormed, encode, blankRequest, dataFits_zero]⟩

theorem encCpl (data : Bytes) (status : BitVec 3) (tag : Byte) : Statement (.encCpl data status tag) :=
  ⟨rfl, rfl, by simp [Instr.wellFormed, encode, blankRequest, bufFits_zero]⟩

theorem valFormat (word : Word) (expFmt : BitVec 2) (expType : BitVec 6) :
    Statement (.valFormat word expFmt expType) :=
  ⟨rfl, rfl, by simp [Instr.wellFormed, encode, blankRequest, bufFits_zero, dataFits_zero]⟩

theorem valLength (length min max : Word) : Statement (.valLength length min max) :=
  ⟨rfl, rfl, by simp [Instr.wellFormed, encode, blankRequest, bufFits_zero, dataFits_zero]⟩

theorem valCapacity (buf : Bytes) (required : Word) : Statement (.valCapacity buf required) :=
  ⟨rfl, rfl, by simp [Instr.wellFormed, encode, blankRequest, dataFits_zero]⟩

theorem decAny (buf : Bytes) : Statement (.decAny buf) :=
  ⟨rfl, rfl, by simp [Instr.wellFormed, encode, blankRequest, dataFits_zero]⟩

theorem reservedC : Statement .reservedC := ⟨rfl, rfl, by decide⟩

theorem reservedD : Statement .reservedD := ⟨rfl, rfl, by decide⟩

theorem reservedE : Statement .reservedE := ⟨rfl, rfl, by decide⟩

theorem reservedF : Statement .reservedF := ⟨rfl, rfl, by decide⟩

end Sys2Proof.Laws.Encoding
end

