-- ==== Sys2Proof/Laws/Decode.lean ====
section
/-! SUPPORT. When a request decodes, and to what. -/

namespace Sys2Proof

theorem Config.bufFits_iff (n : Nat) : Config.bufFits n = true ↔ n ≤ Config.maxBufBytes := by
  rw [Config.bufFits, Bool.or_eq_true, decide_eq_true_iff, decide_eq_true_iff, Config.maxBufBytes]
  omega

theorem Config.dataFits_iff (n : Nat) : Config.dataFits n = true ↔ n ≤ Config.maxDataBytes := by
  rw [Config.dataFits, Bool.or_eq_true, decide_eq_true_iff, decide_eq_true_iff, Config.maxDataBytes]
  omega

/-- R52: a request decodes exactly when both byte sequences can be presented. -/
theorem decode_ok_iff (r : Request) (i : Instr) :
    decode r = .ok i ↔
      r.buf.length ≤ Config.maxBufBytes ∧ r.data.length ≤ Config.maxDataBytes ∧ decodeFields r = i := by
  rw [← Config.bufFits_iff, ← Config.dataFits_iff, decode]
  cases Config.bufFits r.buf.length <;> cases Config.dataFits r.data.length <;> simp

/-- The sixteen values of `op`, for a case analysis. -/
theorem op_cases (b : BitVec 4) :
    b = 0 ∨ b = 1 ∨ b = 2 ∨ b = 3 ∨ b = 4 ∨ b = 5 ∨ b = 6 ∨ b = 7 ∨ b = 8 ∨ b = 9 ∨ b = 10 ∨ b = 11 ∨ b = 12 ∨
      b = 13 ∨ b = 14 ∨ b = 15 := by
  revert b
  decide

end Sys2Proof
end

