-- ==== Sys2Proof/Tests/Slice0.lean ====
section
/-! SUPPORT. Tests. The expected results are those of 95_test_vectors.md and of the examples in the rules, cited as the
number of the vector's section; then one witness for every obligation that has hypotheses. -/

namespace Sys2Proof.Tests

open Sys2Proof Sys2Proof.Machine Sys2Proof.Expect

/-! ## Helpers -/

/-- The operation answers exactly this, performed on the state after reset. -/
def answers (i : Instr) (r : Response) : Bool :=
  match exec i State.reset with
  | .next t    => t.response == some r
  | .fault _   => false
  | .refused _ => false

/-- The operation faults so. -/
def faultsWith (i : Instr) (f : Fault) : Bool :=
  match exec i State.reset with
  | .next _    => false
  | .fault g   => g == f
  | .refused _ => false

/-- The next step refuses so. -/
def refusesWith (s : State) (q : Refusal) : Bool :=
  match step s with
  | .next _    => false
  | .fault _   => false
  | .refused r => r == q

/-- The next step leaves this response. -/
def stepAnswers (s : State) (r : Option Response) : Bool :=
  match step s with
  | .next t    => t.response == r
  | .fault _   => false
  | .refused _ => false

/-- A state in which one request waits. -/
def waiting (p : Presented) : State := { State.reset with inputs := [.request p] }

/-- The write request of vector 2.3 named M. -/
def packetM : Bytes :=
  [0x01, 0xF0, 0x0F, 0x40, 0x00, 0x10, 0x00, 0x00, 0x01, 0x00, 0x00, 0x00, 0xDE, 0xAD, 0xBE, 0xEF, 0x00]

def recordM : WriteRequest :=
  { fmt := 1, type := 0, tc := 0, be := 0xFF, length := 1, address := 0x1000, tag := some 0x00
    payload := [0xDE, 0xAD, 0xBE, 0xEF] }

/-- The read request of vector 1.5. -/
def packetA : Bytes := [0x01, 0, 0, 0, 0, 0x20, 0, 0, 0x07, 0, 0, 0]

def recordA : ReadRequest :=
  { fmt := 0, type := 0, tc := 0, be := 0, length := 1, address := 0x2000, tag := 0x07 }

/-- The completion of vector 1.7. -/
def packetB : Bytes := [0x01, 0, 0, 0x8A, 0, 0, 0, 0, 0x07, 0, 0, 0, 0x11, 0x22, 0x33, 0x44]

def recordB : Completion :=
  { fmt := 2, type := 0x0A, tc := 0, be := 0, length := 1, status := 0, tag := 0x07
    payload := [0x11, 0x22, 0x33, 0x44] }

/-! ## Decoding: every row of R75, with its operands in the fields of R76 -/

theorem test_decode_extract :
    decode { blankRequest 0b0000 with word := 0x12345678, hi := 11, lo := 4, value := 9 } =
      .ok (.extract 0x12345678 11 4) := rfl

theorem test_decode_insert :
    decode { blankRequest 0b0001 with word := 0xFFFFFFFF, value := 7, hi := 19, lo := 12 } =
      .ok (.insert 0xFFFFFFFF 7 19 12) := rfl

theorem test_decode_decWr : decode { blankRequest 0b0010 with buf := [1, 2] } = .ok (.decWr [1, 2]) := rfl

theorem test_decode_encWr :
    decode { blankRequest 0b0011 with address := 0x1000, data := [1, 2, 3, 4], byteEnable := 0xFF, tag := 5 } =
      .ok (.encWr 0x1000 [1, 2, 3, 4] 0xFF 5) := rfl

theorem test_decode_decRd : decode { blankRequest 0b0100 with buf := [1, 2] } = .ok (.decRd [1, 2]) := rfl

theorem test_decode_encRd :
    decode { blankRequest 0b0101 with address := 0x2000, tag := 7 } = .ok (.encRd 0x2000 7) := rfl

theorem test_decode_decCpl : decode { blankRequest 0b0110 with buf := [1, 2] } = .ok (.decCpl [1, 2]) := rfl

theorem test_decode_encCpl :
    decode { blankRequest 0b0111 with data := [1, 2, 3, 4], status := 4, tag := 7 } =
      .ok (.encCpl [1, 2, 3, 4] 4 7) := rfl

theorem test_decode_valFormat :
    decode { blankRequest 0b1000 with word := 0x8A000001, expFmt := 2, expType := 0x0A } =
      .ok (.valFormat 0x8A000001 2 0x0A) := rfl

theorem test_decode_valLength :
    decode { blankRequest 0b1001 with length := 5, min := 1, max := 4095 } = .ok (.valLength 5 1 4095) := rfl

theorem test_decode_valCapacity :
    decode { blankRequest 0b1010 with buf := [0, 0], required := 12 } = .ok (.valCapacity [0, 0] 12) := rfl

theorem test_decode_decAny : decode { blankRequest 0b1011 with buf := [1, 2] } = .ok (.decAny [1, 2]) := rfl

theorem test_decode_reservedC : decodeTableWord 8 0b00001100 = some .reservedC := by decide

theorem test_decode_reservedD : decodeTableWord 8 0b00001101 = some .reservedD := by decide

theorem test_decode_reservedE : decodeTableWord 8 0b00001110 = some .reservedE := by decide

theorem test_decode_reservedF : decodeTableWord 8 0b00001111 = some .reservedF := by decide

/-! ## WellFormed: each check refuses a term that breaks it (R52) -/

/-- One byte more than the longest `buf`. -/
def longBuf : Bytes := List.replicate (Config.maxBufBytes + 1) 0

/-- One byte more than the longest `data`. -/
def longData : Bytes := List.replicate (Config.maxDataBytes + 1) 0

theorem longBuf_refused : Config.bufFits longBuf.length = false := by
  rw [← Bool.not_eq_true, Config.bufFits_iff, longBuf, List.length_replicate]
  omega

theorem longData_refused : Config.dataFits longData.length = false := by
  rw [← Bool.not_eq_true, Config.dataFits_iff, longData, List.length_replicate]
  omega

theorem test_illFormed_decWr : (Instr.decWr longBuf).wellFormed = false := longBuf_refused

theorem test_illFormed_decRd : (Instr.decRd longBuf).wellFormed = false := longBuf_refused

theorem test_illFormed_decCpl : (Instr.decCpl longBuf).wellFormed = false := longBuf_refused

theorem test_illFormed_decAny : (Instr.decAny longBuf).wellFormed = false := longBuf_refused

theorem test_illFormed_valCapacity : (Instr.valCapacity longBuf 0).wellFormed = false := longBuf_refused

theorem test_illFormed_encWr : (Instr.encWr 0 longData 0 0).wellFormed = false := longData_refused

theorem test_illFormed_encCpl : (Instr.encCpl longData 0 0).wellFormed = false := longData_refused

/-- R9: the least sizes fit whatever the interface. -/
theorem test_leastSizesFit : Config.bufFits 16393 = true ∧ Config.dataFits 16384 = true := ⟨rfl, rfl⟩

/-! ## EXTRACT and INSERT -/

/-- 1.3 -/
theorem test_extract_middle : answers (.extract 0x12345678 11 4) (.ok (.word 0x67)) = true := by decide

/-- Program 2, step 12 -/
theorem test_extract_range : faultsWith (.extract 0x4030F002 12 13) .fieldRange = true := by decide

/-- 1.2 -/
theorem test_insert_clears : answers (.insert 0xFFFFFFFF 0 19 12) (.ok (.word 0xFFF00FFF)) = true := by decide

/-- Program 2, step 6: a bit above the field is dropped -/
theorem test_insert_truncates : answers (.insert 0x4030F002 0x1002 11 0) (.ok (.word 0x4030F002)) = true := by decide

/-! ## Write requests -/

/-- 1.4 -/
theorem test_decWr_minimum : answers (.decWr packetM) (.ok (.record (.write recordM))) = true := by decide

/-- 1.6 -/
theorem test_decWr_truncated :
    answers (.decWr [0x04, 0xF0, 0x0F, 0x40, 0x00, 0x10, 0, 0, 0, 0, 0, 0, 1, 2, 3, 4, 5, 6, 7, 8])
      (.err .truncatedBuffer) = true := by decide

/-- 1.1 -/
theorem test_encWr_two_dwords :
    answers (.encWr 0x3004 [1, 2, 3, 4, 5, 6, 7, 8] 0x0F 0x5A)
      (.ok (.packet [0x02, 0xF0, 0x00, 0x40, 0x04, 0x30, 0, 0, 0x01, 0, 0, 0, 1, 2, 3, 4, 5, 6, 7, 8, 0x5A] 21)) =
        true := by decide

/-- 2.4: five bytes -/
theorem test_encWr_not_dwords :
    answers (.encWr 0x1000 [1, 2, 3, 4, 5] 0xFF 0) (.err .invalidPayloadLength) = true := by decide

/-! ## Read requests -/

/-- 2.5: TC and BE passed through, DW2 bits 31:8 and the trailing byte ignored -/
theorem test_decRd_ignores :
    answers (.decRd [0x01, 0xF0, 0xF0, 0x00, 0x00, 0x20, 0, 0, 0x07, 0xFF, 0xFF, 0xFF, 0x99])
      (.ok (.record (.read { recordA with tc := 15, be := 0x0F }))) = true := by decide

/-- 2.5: Format write and Length 2, malformed first -/
theorem test_decRd_malformed_first :
    answers (.decRd [0x02, 0, 0, 0x40, 0, 0x20, 0, 0, 0x07, 0, 0, 0]) (.err .malformedHeader) = true := by decide

/-- 2.6 -/
theorem test_encRd_ones :
    answers (.encRd 0xFFFFFFFF 0xFF) (.ok (.packet [1, 0, 0, 0, 0xFF, 0xFF, 0xFF, 0xFF, 0xFF, 0, 0, 0] 12)) = true := by
  decide

/-! ## Completions -/

/-- 2.7: DW1 bits 31:3 and DW2 bits 31:8 ignored -/
theorem test_decCpl_ignores :
    answers (.decCpl [0x01, 0, 0, 0x8A, 0xF8, 0xFF, 0xFF, 0xFF, 0x07, 0xFF, 0xFF, 0xFF, 0x11, 0x22, 0x33, 0x44])
      (.ok (.record (.completion recordB))) = true := by decide

/-- 2.7: status 5 and two bytes short, the status first -/
theorem test_decCpl_status_first :
    answers (.decCpl [0x01, 0, 0, 0x8A, 0x05, 0, 0, 0, 0x07, 0, 0, 0, 0x11, 0x22]) (.err .invalidStatus) = true := by
  decide

/-- 2.8: CA, two dwords -/
theorem test_encCpl_two_dwords :
    answers (.encCpl [0xAA, 0xBB, 0xCC, 0xDD, 0xEE, 0xFF, 0x00, 0x11] 4 0x80)
      (.ok (.packet [0x02, 0, 0, 0x8A, 0x04, 0, 0, 0, 0x80, 0, 0, 0, 0xAA, 0xBB, 0xCC, 0xDD, 0xEE, 0xFF, 0x00, 0x11]
        20)) = true := by decide

/-- 2.8: three bytes before status 3 -/
theorem test_encCpl_length_first :
    answers (.encCpl [0x11, 0x22, 0x33] 3 0) (.err .invalidPayloadLength) = true := by decide

/-! ## Validators -/

/-- 2.9 -/
theorem test_valFormat_completion : answers (.valFormat 0x8A000001 2 0x0A) (.ok (.flag true)) = true := by decide

/-- 2.9 -/
theorem test_valFormat_type_differs : answers (.valFormat 0x8A000001 2 0x00) (.ok (.flag false)) = true := by decide

/-- 2.9: the upper bound is included -/
theorem test_valLength_bound : answers (.valLength 4095 1 4095) (.ok (.flag true)) = true := by decide

/-- 2.9: `min > max` -/
theorem test_valLength_empty : answers (.valLength 5 6 4) (.ok (.flag false)) = true := by decide

/-- 2.9: equality holds -/
theorem test_valCapacity_equal :
    answers (.valCapacity (List.replicate 12 0) 12) (.ok (.flag true)) = true := by decide

/-- 2.9 -/
theorem test_valCapacity_short : answers (.valCapacity packetB 17) (.ok (.flag false)) = true := by decide

/-! ## DEC_ANY and the reserved values -/

/-- 2.10 -/
theorem test_decAny_write : answers (.decAny packetM) (.ok (.tagged .writeRequest (.write recordM))) = true := by decide

/-- 2.10: Format `0b11` -/
theorem test_decAny_format_three :
    answers (.decAny [0x01, 0, 0, 0xC0, 0, 0, 0, 0, 0, 0, 0, 0, 0, 0, 0, 0]) (.err .malformedHeader) = true := by decide

/-- 2.11 -/
theorem test_reserved_faults :
    faultsWith .reservedC .illegalOp = true ∧ faultsWith .reservedD .illegalOp = true ∧
      faultsWith .reservedE .illegalOp = true ∧ faultsWith .reservedF .illegalOp = true := by decide

/-! ## The step -/

/-- The row ENC_RD as the first request after reset. -/
theorem test_step_withFetchWord :
    stepAnswers (State.reset.withFetchWord 8 0x05)
      (some (.ok (.packet [1, 0, 0, 0, 0, 0, 0, 0, 0, 0, 0, 0] 12))) = true := by decide

/-- R252: reset while a request is in flight leaves no response. -/
theorem test_step_reset :
    stepAnswers { State.reset with inputs := [.reset (some (plainly (encode (.encRd 0 0))))] } none = true := by decide

/-- R46: 12 bytes do not fit 11. -/
theorem test_step_capacity :
    refusesWith (waiting { plainly (encode (.encRd 0 0)) with outCap := some 11 }) .outputTooLong = true := by decide

/-- R51 -/
theorem test_step_aliased :
    refusesWith (waiting { plainly (encode (.encRd 0 0)) with aliased := true }) .aliasedBuffers = true := by decide

/-! ## The textual form (R78, R79) -/

/-- 2.6 -/
theorem test_text_request :
    readRequest "ENC_RD address=0x2000, tag=7".toList = some (encode (.encRd 0x2000 7)) := by decide

/-- 1.4 -/
theorem test_text_pseudo :
    readRequest "GET_LEN word=0x400FF001".toList = some (encode (.extract 0x400FF001 11 0)) := by decide

/-- 2.6 -/
theorem test_text_response :
    responseText (.ok (.packet packetA 12)) = "-> OK out=[01 00 00 00 00 20 00 00 07 00 00 00] olen=12".toList := by
  decide

/-- 2.11 -/
theorem test_text_fault : faultText .illegalOp = "-> ILLEGAL_OP".toList := by decide

/-! ## Witnesses: the hypotheses of each obligation are met together, each clause at the edge of its range -/

/-- A sound request, and one whose operation answers with an error. -/
def request1 : Presented := { plainly (encode (.encRd 0x2000 7)) with outCap := some 13, outBuf := [(12, 0xEE)] }

def request2 : Presented := plainly (encode (.decWr packetB))

theorem witness_StepPerformsTheDecodedRequest :
    (waiting request1).inputs = .request request1 :: [] ∧ request1.unstable = false ∧ request1.aliased = false ∧
      decode request1.req = .ok (.encRd 0x2000 7) := ⟨rfl, rfl, rfl, rfl⟩

theorem witness_StepWithNothingWaitingChangesNothing : State.reset.inputs = [] := rfl

theorem witness_ResetDiscardsTheRequestInFlight :
    { State.reset with inputs := [.reset (some request1)] }.inputs = .reset (some request1) :: [] := rfl

theorem witness_ResetLeavesNoResponsePending :
    { State.reset with inputs := [.reset none] }.inputs = .reset none :: [] := rfl

/-- Told one, told the other, told both, each of presentable length; and told while `buf` is over-long. -/
theorem witness_RequestsToldUnstableOrAliasedAreRefused :
    (∃ s p rest, State.inputs s = .request p :: rest ∧ p.req.buf.length ≤ Config.maxBufBytes ∧
      p.req.data.length ≤ Config.maxDataBytes ∧ p.unstable = true ∧ p.aliased = false) ∧
    (∃ s p rest, State.inputs s = .request p :: rest ∧ p.req.buf.length ≤ Config.maxBufBytes ∧
      p.req.data.length ≤ Config.maxDataBytes ∧ p.unstable = false ∧ p.aliased = true) ∧
    (∃ s p rest, State.inputs s = .request p :: rest ∧ p.req.buf.length ≤ Config.maxBufBytes ∧
      p.req.data.length ≤ Config.maxDataBytes ∧ p.unstable = true ∧ p.aliased = true) ∧
    ∃ s p rest, State.inputs s = .request p :: rest ∧ Config.maxBufBytes < p.req.buf.length ∧ p.aliased = true :=
  ⟨⟨waiting { request1 with unstable := true }, _, _, rfl, Nat.zero_le _, Nat.zero_le _, rfl, rfl⟩,
    ⟨waiting { request1 with aliased := true }, _, _, rfl, Nat.zero_le _, Nat.zero_le _, rfl, rfl⟩,
    ⟨waiting { request1 with unstable := true, aliased := true }, _, _, rfl, Nat.zero_le _, Nat.zero_le _, rfl, rfl⟩,
    ⟨waiting { plainly { blankRequest 2 with buf := longBuf } with aliased := true }, _, _, rfl,
      by simp [plainly, longBuf], rfl⟩⟩

/-- The lengths one past the limits, and at them. -/
theorem witness_RequestsBeyondTheSizeLimitsAreRefused :
    (∃ p : Presented, p.unstable = false ∧ p.aliased = false ∧ Config.maxBufBytes < p.req.buf.length ∧
      p.req.data.length ≤ Config.maxDataBytes) ∧
    (∃ p : Presented, p.unstable = false ∧ p.aliased = false ∧ p.req.buf.length ≤ Config.maxBufBytes ∧
      Config.maxDataBytes < p.req.data.length) ∧
    (∃ p : Presented, p.unstable = false ∧ p.aliased = false ∧ Config.maxBufBytes < p.req.buf.length ∧
      Config.maxDataBytes < p.req.data.length) ∧
    ∃ r : Request, r.buf.length = Config.maxBufBytes ∧ r.data.length = Config.maxDataBytes :=
  ⟨⟨plainly { blankRequest 0 with buf := longBuf }, rfl, rfl, by simp [plainly, longBuf],
      by simp [plainly, blankRequest]⟩,
    ⟨plainly { blankRequest 0 with data := longData }, rfl, rfl, by simp [plainly, blankRequest],
      by simp [plainly, longData]⟩,
    ⟨plainly { blankRequest 0 with buf := longBuf, data := longData }, rfl, rfl, by simp [plainly, longBuf],
      by simp [plainly, longData]⟩,
    ⟨{ blankRequest 0 with
        buf := List.replicate Config.maxBufBytes 0, data := List.replicate Config.maxDataBytes 0 }, by simp⟩⟩

theorem witness_UnreadRequestFieldsHaveNoEffect :
    let r := encode (.encRd 0x2000 7)
    let r' := { r with word := 9, buf := [1], max := 3 }
    (waiting (plainly r)).inputs = .request (plainly r) :: [] ∧
      (waiting (plainly r')).inputs = .request { plainly r with req := r' } :: [] ∧
      r.buf.length ≤ Config.maxBufBytes ∧ r.data.length ≤ Config.maxDataBytes ∧
      r'.buf.length ≤ Config.maxBufBytes ∧ r'.data.length ≤ Config.maxDataBytes ∧ r.sameReading r' = true := by
  refine ⟨rfl, rfl, Nat.zero_le _, Nat.zero_le _, ?_, Nat.zero_le _, by decide⟩
  rw [← Config.bufFits_iff]
  rfl

theorem witness_AStepDependsOnItsRequestAlone :
    (waiting request1).inputs = .request request1 :: [] ∧
      { State.reset with inputs := [.request request1, .reset none], response := some (.ok (.flag true)) }.inputs =
        .request request1 :: [.reset none] := ⟨rfl, rfl⟩

theorem witness_EveryOrderGivesEachRequestItsOwnAnswer :
    { State.reset with inputs := [request2, request1].map .request }.inputs = [request2, request1].map .request ++ [] ∧
      (∀ q ∈ [request2, request1], Presented.sound q = true) ∧ [request2, request1][1]? = some request1 :=
  ⟨rfl, by decide, rfl⟩

theorem witness_RequestDecodingAndEncodingAgree :
    (Instr.decWr (List.replicate Config.maxBufBytes 0)).wellFormed = true ∧
      (Instr.encCpl (List.replicate Config.maxDataBytes 0) 7 0xFF).wellFormed = true ∧
      decode (blankRequest 0xF) = .ok .reservedF :=
  ⟨by simp [Instr.wellFormed, Config.bufFits], by simp [Instr.wellFormed, Config.dataFits], rfl⟩

theorem witness_DwordsAreReadLittleEndian : 4 * 0 + 3 < [1, 2, 3, (4 : Byte)].length := by decide

theorem witness_EveryLongBufferIsThreeDwordsAndARest : 12 ≤ packetA.length ∧ packetA.length = 12 := by decide

/-- The bounds of EXTRACT and INSERT: the whole word, one bit, and both ways of being out of range. -/
theorem witness_fields :
    ((0 : Byte).toNat ≤ (31 : Byte).toNat ∧ (31 : Byte).toNat ≤ 31) ∧
      ((31 : Byte).toNat ≤ (31 : Byte).toNat ∧ (31 : Byte).toNat ≤ 31) ∧ (12 : Byte).toNat < (13 : Byte).toNat ∧
      31 < (32 : Byte).toNat := by decide

theorem witness_ExtractAnswersTheField : ∃ hi lo : Byte, lo.toNat ≤ hi.toNat ∧ hi.toNat ≤ 31 :=
  ⟨31, 0, witness_fields.1⟩

theorem witness_InsertReplacesTheField : ∃ hi lo : Byte, hi.toNat < lo.toNat ∨ 31 < hi.toNat :=
  ⟨12, 13, .inl witness_fields.2.2.1⟩

/-- The bits next to the field on either side. -/
theorem witness_InsertChangesOnlyItsField :
    let hi : Byte := 19
    let lo : Byte := 12
    lo.toNat ≤ hi.toNat ∧ hi.toNat ≤ 31 ∧ (20 : Byte).toNat ≤ 31 ∧ hi.toNat < (20 : Byte).toNat ∧
      (11 : Byte).toNat < lo.toNat := by decide

theorem witness_ExtractionIsIdempotent : ∃ hi lo : Byte, lo.toNat ≤ hi.toNat ∧ hi.toNat ≤ 31 :=
  ⟨31, 31, witness_fields.2.1⟩

theorem witness_ExtractAndInsertUndoEachOther : ∃ hi lo : Byte, lo.toNat ≤ hi.toNat ∧ hi.toNat ≤ 31 :=
  ⟨31, 0, witness_fields.1⟩

theorem witness_ExtractReadsOnlyItsField :
    ∀ p, (4 : Byte).toNat ≤ p → p ≤ (11 : Byte).toNat →
      (0x12345678 : Word).getLsbD p = (0xFFFFF67F : Word).getLsbD p := by decide

/-- The header words of vectors 2.3, 2.5 and 2.7, and neighbours of another type or Length. -/
theorem witness_DecWrDecodesOrReportsTheFirstError :
    (List.replicate 11 (0 : Byte)).length < 12 ∧ ¬ isWrite 0x8A000001 ∧ ¬ isWrite 0x41000001 ∧
      (isWrite 0x40000000 ∧ len 0x40000000 = 0) ∧
      (isWrite 0x400FF001 ∧ len 0x400FF001 ≠ 0 ∧
        [0xDE, 0xAD, 0xBE, (0xEF : Byte)].length < 4 * len 0x400FF001 + bits 1 0 0) ∧
      (isWrite 0x400FF001 ∧ len 0x400FF001 ≠ 0 ∧
        4 * len 0x400FF001 + bits 1 0 0 ≤ [0xDE, 0xAD, 0xBE, 0xEF, (0x00 : Byte)].length) := by
  unfold isWrite
  decide

theorem witness_DecRdDecodesOrReportsTheFirstError :
    (List.replicate 11 (0 : Byte)).length < 12 ∧ ¬ isRead 0x40000002 ∧ ¬ isRead 0x01000001 ∧
      (isRead 0x00000002 ∧ len 0x00000002 ≠ 1) ∧ (isRead 0x00000000 ∧ len 0x00000000 ≠ 1) ∧
      (isRead 0x00000001 ∧ len 0x00000001 = 1) := by
  unfold isRead
  decide

theorem witness_DecCplDecodesOrReportsTheFirstError :
    (List.replicate 11 (0 : Byte)).length < 12 ∧ ¬ isCompletion 0x89000001 ∧
      (isCompletion 0x8A000001 ∧ ¬ isStatus (bits 0x00000003 2 0)) ∧
      (isCompletion 0x8A000002 ∧ isStatus (bits 0x00000004 2 0) ∧ [1, 2, 3, 4, 5, (6 : Byte)].length < 4 * len 0x8A000002) ∧
      (isCompletion 0x8A000000 ∧ isStatus (bits 0xFFFFFFF8 2 0) ∧ 4 * len 0x8A000000 ≤ ([] : Bytes).length) := by
  unfold isCompletion isStatus
  decide

theorem witness_DecAnyDecodesEveryPacketType :
    (isRead 0x00000001 ∧ len 0x00000001 = 1) ∧
      (isWrite 0x40000001 ∧ len 0x40000001 ≠ 0 ∧ 4 * len 0x40000001 + bits 0 0 0 ≤ [1, 2, 3, (4 : Byte)].length) ∧
      (isCompletion 0x8A000000 ∧ isStatus (bits 1 2 0) ∧ 4 * len 0x8A000000 ≤ ([] : Bytes).length) := by
  unfold isRead isWrite isCompletion isStatus
  decide

theorem witness_DecAnyIsTheDecoderItsFormatSelects :
    (List.replicate 11 (0 : Byte)).length < 12 ∧ bits 0x3FFFFFFF 31 30 = 0 ∧ bits 0x400FF001 31 30 = 1 ∧
      bits 0x8A000001 31 30 = 2 ∧ bits 0xC0000001 31 30 = 3 := by decide

theorem witness_ReservedBitsAndTrailingBytesAreIgnored :
    (bits 0x00000001 0 0 = bits 0xFFFFFFFF 0 0 ∧ bits 0x400FF001 31 30 = 1) ∧
      (bits 0x00000007 7 0 = bits 0xFFFFFF07 7 0 ∧ bits 0x00000001 31 30 = 0) ∧
      (bits 0x00000000 2 0 = bits 0xFFFFFFF8 2 0 ∧ bits 0x8A000001 31 30 = 2) ∧
      (∃ t, t.response ≠ some (.err .truncatedBuffer) ∧ exec (.decWr packetM) State.reset = .next t) ∧
      (∃ t, t.response ≠ some (.err .truncatedBuffer) ∧ exec (.decRd packetA) State.reset = .next t) ∧
      (∃ t, t.response ≠ some (.err .truncatedBuffer) ∧ exec (.decCpl packetM) State.reset = .next t) ∧
      (∃ t, t.response ≠ some (.err .truncatedBuffer) ∧ exec (.decAny packetB) State.reset = .next t) ∧
      (∃ t out n, t.response = some (.ok (.packet out n)) ∧ exec (.encWr 1 [1, 2, 3, 4] 0 0) State.reset = .next t) ∧
      (∃ t out n, t.response = some (.ok (.packet out n)) ∧ exec (.encRd 1 0) State.reset = .next t) ∧
      (∃ t out n, t.response = some (.ok (.packet out n)) ∧ exec (.encCpl [] 4 0) State.reset = .next t) :=
  ⟨by decide, by decide, by decide,
    ⟨State.reset.answered (.ok (.record (.write recordM))), by decide, rfl⟩,
    ⟨State.reset.answered (.ok (.record (.read recordA))), by decide, rfl⟩,
    ⟨State.reset.answered (.err .malformedHeader), by decide, rfl⟩,
    ⟨State.reset.answered (.ok (.tagged .completion (.completion recordB))), by decide, rfl⟩,
    ⟨_, _, _, rfl, rfl⟩, ⟨_, _, _, rfl, rfl⟩, ⟨_, _, _, rfl, rfl⟩⟩

theorem witness_PayloadBytesAreCopiedInOrder :
    (∃ t w, exec (.decWr packetM) State.reset = .next t ∧ t.response = some (.ok (.record (.write w))) ∧
      3 < w.payload.length) ∧
    (∃ t q, exec (.decCpl packetB) State.reset = .next t ∧ t.response = some (.ok (.record (.completion q))) ∧
      3 < q.payload.length) ∧
    (∃ t out n, t.response = some (.ok (.packet out n)) ∧ exec (.encWr 1 [1, 2, 3, 4] 0 0) State.reset = .next t) ∧
    (∃ t out n, t.response = some (.ok (.packet out n)) ∧ exec (.encCpl [1, 2, 3, 4] 4 0) State.reset = .next t) :=
  ⟨⟨_, recordM, rfl, rfl, by decide⟩, ⟨_, recordB, rfl, rfl, by decide⟩, ⟨_, _, _, rfl, rfl⟩, ⟨_, _, _, rfl, rfl⟩⟩

/-- The reset state holds any output. -/
theorem reset_holds (n : Nat) : holds State.reset n := by
  intro k h
  cases h

/-- A state whose output buffer holds exactly `n` bytes. -/
def capped (n : Nat) : State := { State.reset with outCap := some n }

theorem capped_holds (n : Nat) : holds (capped n) n := by
  intro k h
  cases h
  exact Nat.le_refl _

/-- `n` zero bytes. -/
def zeros (n : Nat) : Bytes := List.replicate n 0

theorem zeros_length (n : Nat) : (zeros n).length = n := List.length_replicate

theorem witness_EncWrWritesItsPacketOrReportsTheFirstError :
    ((zeros 0).length = 0 ∨ (zeros 0).length % 4 ≠ 0) ∧ ((zeros 16381).length = 0 ∨ (zeros 16381).length % 4 ≠ 0) ∧
      (16380 < (zeros 16384).length ∧ (zeros 16384).length % 4 = 0) ∧
      (4 ≤ (zeros 4).length ∧ (zeros 4).length ≤ 16380 ∧ (zeros 4).length % 4 = 0 ∧
        holds (capped 17) (13 + (zeros 4).length)) ∧
      (4 ≤ (zeros 16380).length ∧ (zeros 16380).length ≤ 16380 ∧ (zeros 16380).length % 4 = 0 ∧
        holds State.reset (13 + (zeros 16380).length)) := by
  simp only [zeros_length]
  exact ⟨by decide, by decide, by decide, ⟨by decide, by decide, by decide, capped_holds 17⟩,
    by decide, by decide, by decide, reset_holds _⟩

theorem witness_EncRdAlwaysWritesItsPacket : holds (capped 12) 12 := capped_holds 12

theorem witness_EncCplWritesItsPacketOrReportsTheFirstError :
    (zeros 3).length % 4 ≠ 0 ∧ (16380 < (zeros 16384).length ∧ (zeros 16384).length % 4 = 0) ∧
      ((zeros 16380).length ≤ 16380 ∧ (zeros 16380).length % 4 = 0 ∧ ¬ isStatus (3 : BitVec 3).toNat) ∧
      ((zeros 0).length ≤ 16380 ∧ (zeros 0).length % 4 = 0 ∧ isStatus (4 : BitVec 3).toNat ∧
        holds (capped 12) (12 + (zeros 0).length)) ∧
      ((zeros 16380).length ≤ 16380 ∧ (zeros 16380).length % 4 = 0 ∧ isStatus (0 : BitVec 3).toNat ∧
        holds State.reset (12 + (zeros 16380).length)) := by
  simp only [zeros_length]
  unfold isStatus
  exact ⟨by decide, by decide, by decide, ⟨by decide, by decide, by decide, capped_holds 12⟩,
    by decide, by decide, by decide, reset_holds _⟩

/-- One byte of capacity short for each encoder. -/
theorem witness_OutputLongerThanItsBufferIsRefused :
    ((capped 16).outCap = some 16 ∧ 4 ≤ (zeros 4).length ∧ (zeros 4).length ≤ 16380 ∧ (zeros 4).length % 4 = 0 ∧
      16 < 13 + (zeros 4).length) ∧
    ((capped 11).outCap = some 11 ∧ 11 < 12) ∧
    ((capped 15).outCap = some 15 ∧ (zeros 4).length ≤ 16380 ∧ (zeros 4).length % 4 = 0 ∧
      isStatus (1 : BitVec 3).toNat ∧ 15 < 12 + (zeros 4).length) ∧
    State.reset.outCap = none := by
  unfold isStatus
  decide

theorem witness_OnlyTheOutputOfAnEncoderIsWritten :
    (∃ t out, exec (.encRd 0x2000 7) State.reset = .next t ∧ t.response = some (.ok (.packet out 12))) ∧
      ∃ t, exec (.encWr 0 [1] 0 0) State.reset = .next t ∧ t.response = some (.err .invalidPayloadLength) :=
  ⟨⟨_, _, rfl, rfl⟩, _, rfl, rfl⟩

theorem witness_OperationsWithoutOutputChangeOnlyTheResponse :
    writesOutput (.decAny packetM) = false ∧ ∃ t, exec (.decAny packetM) State.reset = .next t := ⟨rfl, _, rfl⟩

theorem witness_ValLengthTestsAClosedRange : (4 : Word).toNat < (5 : Word).toNat := by decide

theorem witness_ValCapacityComparesTheLengthOfTheBuffer : [1, 2, (3 : Byte)].length = [4, 5, (6 : Byte)].length := rfl

/-- The least and the greatest reserved value of `op`, with a field set that it does not read. -/
theorem witness_ReservedOperationsFault :
    let p := plainly { blankRequest 0xC with word := 1 }
    let q := plainly (blankRequest 0xF)
    (waiting p).inputs = .request p :: [] ∧ p.unstable = false ∧ p.aliased = false ∧
      p.req.buf.length ≤ Config.maxBufBytes ∧ p.req.data.length ≤ Config.maxDataBytes ∧ 12 ≤ p.req.op.toNat ∧
      q.req.op.toNat = 15 :=
  ⟨rfl, rfl, rfl, Nat.zero_le _, Nat.zero_le _, by decide, by decide⟩

theorem witness_OperationsGiveOnlyTheirOwnCodes :
    (∃ t, exec (.decCpl packetM) State.reset = .next t) ∧
      exec (.extract 0 0 1) State.reset = .fault .fieldRange ∧
      exec (.encRd 0 0) (capped 11) = .refused .outputTooLong := ⟨⟨_, rfl⟩, rfl, rfl⟩

theorem witness_ResponsesCarryExactlyTheirFields :
    (∃ t, exec (.decAny packetA) State.reset = .next t) ∧ ∃ t, exec (.decAny packetA.tail) State.reset = .next t :=
  ⟨⟨_, rfl⟩, _, rfl⟩

theorem witness_ErrorsChangeNothingButTheResponse :
    ∃ t, exec (.encCpl [] 3 0) State.reset = .next t ∧ t.response = some (.err .invalidStatus) := ⟨_, rfl, rfl⟩

theorem witness_WriteRequestsRoundTrip :
    4 ≤ (zeros 4).length ∧ (zeros 4).length ≤ 16380 ∧ (zeros 4).length % 4 = 0 ∧
      holds (capped 17) (13 + (zeros 4).length) := ⟨by decide, by decide, by decide, capped_holds 17⟩

theorem witness_ReadRequestsRoundTrip : holds (capped 12) 12 := capped_holds 12

theorem witness_CompletionsRoundTrip :
    (zeros 0).length ≤ 16380 ∧ (zeros 0).length % 4 = 0 ∧ isStatus (2 : BitVec 3).toNat ∧
      holds (capped 12) (12 + (zeros 0).length) := by
  refine ⟨by decide, by decide, ?_, capped_holds 12⟩
  unfold isStatus
  decide

/-- The packet M, which has all four conditions of R127. -/
theorem witness_WriteRequestsReencodeUnderFourConditions :
    isWrite 0x400FF001 ∧ len 0x400FF001 ≠ 0 ∧
      4 * len 0x400FF001 + bits 1 0 0 ≤ [0xDE, 0xAD, 0xBE, 0xEF, (0x00 : Byte)].length ∧
      holds (capped 17) (13 + 4 * len 0x400FF001) := by
  refine ⟨?_, by decide, by decide, capped_holds 17⟩
  unfold isWrite
  decide

/-- This spec's configuration and another that R10 admits, and each encoder succeeding under it. -/
theorem witness_EveryAdmittedConfigurationRoundTrips :
    codesValid codes = true ∧
      let c : Config.Codes := { fmtCpl := 0b11, typeRd := 1, typeWr := 2, typeCpl := 3, statuses := [0] }
      codesValid c = true ∧ (∃ out n, encodeWrite c 0x1000 [1, 2, 3, 4] 0xFF 0 = .ok (out, n)) ∧
        ∃ out n, encodeCompletion c [] 0 7 = .ok (out, n) :=
  ⟨rfl, rfl, ⟨_, _, rfl⟩, _, _, rfl⟩

theorem witness_EveryStepKeepsTheInvariant :
    (waiting request1).Inv ∧ ∃ t, step (waiting request1) = .next t := by
  refine ⟨⟨by decide, by decide, ?_⟩, _, rfl⟩
  intro r h
  cases h

theorem witness_CorrectCallersAreAlwaysAnswered :
    let s := { State.reset with inputs := [.request request1, .reset none, .request request2] }
    s.inputs.all Input.sound = true ∧ s.inputs = .request request1 :: [.reset none, .request request2] :=
  ⟨by decide, rfl⟩

theorem witness_EverySoundRequestIsAnsweredInOneStep :
    (waiting request1).inputs = .request request1 :: [] ∧ request1.sound = true := ⟨rfl, by decide⟩

end Sys2Proof.Tests
end

/-! SUPPORT. Byte order, the parts of a buffer that begins with three dwords, and from them the round trips of the three
packet types and their disjointness, under every configuration R10 admits. -/

namespace Sys2Proof.Machine

open Sys2Proof.Expect

/-! ## Byte order -/

/-- R42: the model's bit slices of a dword are the bytes of its value in base 256. -/
theorem le32_eq_bytes4 (v : Word) : le32 v = bytes4 v := by
  simp only [le32, bytes4, BitVec.extractLsb', Nat.shiftRight_eq_div_pow, Nat.pow_zero, Nat.div_one]

theorem dw_le32 (v : Word) : dw (le32 v) 0 = v := by
  simpa using dw_le32_zero v []

/-- Settles O15: the bytes are those of the value in base 256, and reading them back joins them again. -/
theorem dwordsAreWrittenLittleEndian : Obligations.DwordsAreWrittenLittleEndian := by
  intro v
  exact ⟨le32_eq_bytes4 v, dw_le32 v⟩

/-! ## A buffer of three dwords and a rest (R61) -/

/-- The form in which the encoders write a packet. -/
theorem le32_append_eq_packet (w0 w1 w2 : Word) (rest : Bytes) :
    le32 w0 ++ le32 w1 ++ le32 w2 ++ rest = packet w0 w1 w2 rest := by
  simp only [packet, le32_eq_bytes4]

section Packet

variable (w0 w1 w2 : Word) (rest : Bytes)

@[simp] theorem packet_length : (packet w0 w1 w2 rest).length = 12 + rest.length := by
  simp only [← le32_append_eq_packet, List.length_append, le32_length]

@[simp] theorem dw_packet_zero : dw (packet w0 w1 w2 rest) 0 = w0 := by
  rw [← le32_append_eq_packet, List.append_assoc, List.append_assoc, dw_le32_zero]

@[simp] theorem dw_packet_one : dw (packet w0 w1 w2 rest) 1 = w1 := by
  rw [← le32_append_eq_packet, List.append_assoc, List.append_assoc, dw_le32_one]

@[simp] theorem dw_packet_two : dw (packet w0 w1 w2 rest) 2 = w2 := by
  rw [← le32_append_eq_packet, List.append_assoc, List.append_assoc, dw_le32_two]

/-- R44: a slice from the end of the header takes the first bytes of the rest. -/
@[simp] theorem slice_packet (n : Nat) : slice (packet w0 w1 w2 rest) 12 (12 + n) = rest.take n := by
  have header_length : (bytes4 w0 ++ bytes4 w1 ++ bytes4 w2).length = 12 := rfl
  rw [slice, packet, ← header_length, List.take_length_add_append, List.drop_left]

@[simp] theorem byteAt_packet (n : Nat) : byteAt (packet w0 w1 w2 rest) (12 + n) = byteAt rest n := by
  have header_length : (bytes4 w0 ++ bytes4 w1 ++ bytes4 w2).length = 12 := rfl
  simp only [byteAt, packet, List.getD_eq_getElem?_getD]
  rw [List.getElem?_append_right (by omega), header_length, Nat.add_sub_cancel_left]

end Packet

@[simp] theorem byteAt_append_singleton (s : Bytes) (b : Byte) : byteAt (s ++ [b]) s.length = b := by
  simp [byteAt]

/-! ## The fields the encoders write -/

@[simp] theorem statusOf_setWidth (status : BitVec 3) : statusOf (status.setWidth 32) = status := by
  rw [statusOf_eq, ← BitVec.setWidth_eq_extractLsb' (by decide), BitVec.setWidth_setWidth_of_le _ (by decide),
    BitVec.setWidth_eq]

@[simp] theorem tagOf_setWidth (tag : Byte) : tagOf (tag.setWidth 32) = tag := by
  rw [tagOf_eq, ← BitVec.setWidth_eq_extractLsb' (by decide), BitVec.setWidth_setWidth_of_le _ (by decide),
    BitVec.setWidth_eq]

/-- R63: DW2 of a write request as ENC_WR writes it announces its tag byte. -/
@[simp] theorem tagPresent_one : tagPresent 1#32 = 1 := by decide

/-- R70, R122: the Length field of an encodable payload counts its bytes, without wrapping at 12 bits. -/
theorem four_mul_length_field {n : Nat} (hle : n ≤ 16380) (h4 : n % 4 = 0) :
    4 * (BitVec.ofNat 12 (n / 4)).toNat = n := by
  rw [BitVec.toNat_ofNat]
  omega

/-! ## Round trips

In these proofs `simp` keeps the Length field folded (`-BitVec.toNat_ofNat`), so that `four_mul_length_field` rewrites it
to the size of the payload. -/

/-- R126 under any configuration: DEC_WR reads what ENC_WR wrote. -/
theorem decodeWrite_encodeWrite {c : Config.Codes} {address : Word} {data : Bytes} {be tag : Byte} {out : Bytes}
    {n : Nat} (h : encodeWrite c address data be tag = .ok (out, n)) :
    decodeWrite c out = .ok
      { fmt := fmtWr, type := c.typeWr, tc := encTc, be := be, length := BitVec.ofNat 12 (data.length / 4)
        address := address, tag := some tag, payload := data } := by
  obtain ⟨hpos, hle, h4, hp⟩ := (encodeWrite_ok_iff ..).mp h
  obtain ⟨rfl, -⟩ := Prod.mk.inj hp
  have hlen := four_mul_length_field hle h4
  rw [List.append_assoc, le32_append_eq_packet, decodeWrite_ok_iff]
  have hcount : 1 ≤ (BitVec.ofNat 12 (data.length / 4)).toNat := by omega
  simp [hlen, hcount, -BitVec.toNat_ofNat]

/-- R145 under any configuration: DEC_RD reads what ENC_RD wrote. -/
theorem decodeRead_encodeRead (c : Config.Codes) (address : Word) (tag : Byte) :
    decodeRead c (encodeRead c address tag).1 = .ok
      { fmt := fmtRd, type := c.typeRd, tc := encTc, be := encBeRd, length := 1, address := address, tag := tag } := by
  have hout : (encodeRead c address tag).1 =
      packet (headerWord fmtRd c.typeRd encTc encBeRd 1) address (tag.setWidth 32) [] := by
    rw [← le32_append_eq_packet, List.append_nil, encodeRead]
  rw [hout, decodeRead_ok_iff]
  simp

/-- R165 under any configuration: DEC_CPL reads what ENC_CPL wrote. -/
theorem decodeCompletion_encodeCompletion {c : Config.Codes} {data : Bytes} {status : BitVec 3} {tag : Byte}
    {out : Bytes} {n : Nat} (h : encodeCompletion c data status tag = .ok (out, n)) :
    decodeCompletion c out = .ok
      { fmt := c.fmtCpl, type := c.typeCpl, tc := encTc, be := encBeCpl
        length := BitVec.ofNat 12 (data.length / 4), status := status, tag := tag, payload := data } := by
  obtain ⟨hle, h4, hs, hp⟩ := (encodeCompletion_ok_iff ..).mp h
  obtain ⟨rfl, -⟩ := Prod.mk.inj hp
  have hlen := four_mul_length_field hle h4
  rw [le32_append_eq_packet, decodeCompletion_ok_iff]
  simp [hs, hlen, -BitVec.toNat_ofNat]

/-! ## The packet types stay apart -/

/-- R10: a completion has a Format of its own. -/
theorem fmtCpl_ne_of_codesValid {c : Config.Codes} (h : codesValid c = true) : c.fmtCpl ≠ fmtRd ∧ c.fmtCpl ≠ fmtWr := by
  simp only [codesValid, Bool.and_eq_true, bne_iff_ne] at h
  obtain ⟨hne, -⟩ := h
  exact hne

section Formats

variable {c : Config.Codes} {buf : Bytes}

theorem fmtOf_of_decodeWrite {w : WriteRequest} (h : decodeWrite c buf = .ok w) : fmtOf (dw buf 0) = fmtWr := by
  obtain ⟨-, hfmt, -⟩ := (decodeWrite_ok_iff c buf w).mp h
  exact hfmt

theorem fmtOf_of_decodeRead {q : ReadRequest} (h : decodeRead c buf = .ok q) : fmtOf (dw buf 0) = fmtRd := by
  obtain ⟨-, hfmt, -⟩ := (decodeRead_ok_iff c buf q).mp h
  exact hfmt

theorem fmtOf_of_decodeCompletion {k : Completion} (h : decodeCompletion c buf = .ok k) :
    fmtOf (dw buf 0) = c.fmtCpl := by
  obtain ⟨-, hfmt, -⟩ := (decodeCompletion_ok_iff c buf k).mp h
  exact hfmt

end Formats

/-- Settles O48: each round trip holds under every configuration, and two decoders that both succeed would see two Formats
in one Header Word, which R10's constraints exclude. -/
theorem everyAdmittedConfigurationRoundTrips : Obligations.EveryAdmittedConfigurationRoundTrips := by
  intro c hc
  obtain ⟨hne_rd, hne_wr⟩ := fmtCpl_ne_of_codesValid hc
  refine ⟨fun _ _ _ _ _ _ h => decodeWrite_encodeWrite h, decodeRead_encodeRead c,
    fun _ _ _ _ _ h => decodeCompletion_encodeCompletion h, fun buf w q k => ⟨?_, ?_, ?_⟩⟩
  · rintro ⟨hw, hq⟩
    have hfmt : fmtWr = fmtRd := (fmtOf_of_decodeWrite hw).symm.trans (fmtOf_of_decodeRead hq)
    exact absurd hfmt (by decide)
  · rintro ⟨hw, hk⟩
    exact hne_wr ((fmtOf_of_decodeCompletion hk).symm.trans (fmtOf_of_decodeWrite hw))
  · rintro ⟨hq, hk⟩
    exact hne_rd ((fmtOf_of_decodeCompletion hk).symm.trans (fmtOf_of_decodeRead hq))

end Sys2Proof.Machine

/-! SUPPORT. What an operation comes to, apart from the state it runs on, and from it the statements on the step and the
interface: the invariant, the answers to correct callers, what a step depends on, and the fields of a response. -/

namespace Sys2Proof.Machine

open Sys2Proof.Expect

/-! ## What an operation comes to -/

/-- The fault, error kind or result an operation comes to. Its operands alone decide it (R20). -/
def outcomeOf : Instr → Except Fault (Except ErrorKind Result)
  | .extract word hi lo =>
    if fieldInRange hi.toNat lo.toNat then .ok (.ok (.word (extractField word hi.toNat lo.toNat)))
    else .error .fieldRange
  | .insert word value hi lo =>
    if fieldInRange hi.toNat lo.toNat then .ok (.ok (.word (insertField word value hi.toNat lo.toNat)))
    else .error .fieldRange
  | .decWr buf => .ok ((decodeWrite codes buf).map fun r => .record (.write r))
  | .encWr address data byteEnable tag =>
    .ok ((encodeWrite codes address data byteEnable tag).map fun p => .packet p.1 p.2)
  | .decRd buf => .ok ((decodeRead codes buf).map fun r => .record (.read r))
  | .encRd address tag => .ok (.ok (.packet (encodeRead codes address tag).1 (encodeRead codes address tag).2))
  | .decCpl buf => .ok ((decodeCompletion codes buf).map fun r => .record (.completion r))
  | .encCpl data status tag => .ok ((encodeCompletion codes data status tag).map fun p => .packet p.1 p.2)
  | .valFormat word expFmt expType => .ok (.ok (.flag (formatMatches word expFmt expType)))
  | .valLength length min max => .ok (.ok (.flag (lengthInRange length.toNat min.toNat max.toNat)))
  | .valCapacity buf required => .ok (.ok (.flag (bufferHasCapacity buf required.toNat)))
  | .decAny buf => .ok ((decodeAny codes buf).map fun kr => .tagged kr.1 kr.2)
  | .reservedC | .reservedD | .reservedE | .reservedF => .error .illegalOp

/-- How an operation that came to a result ends: a packet is delivered, any other result replied. -/
def finish : Result → State → Host.Outcome State Fault Refusal
  | .packet out olen, s => deliver out olen s
  | v, s                => reply v s

/-- How an operation ends, by what it came to. -/
def conclude : Except Fault (Except ErrorKind Result) → State → Host.Outcome State Fault Refusal
  | .error f, s       => violate f s
  | .ok (.error e), s => raise e s
  | .ok (.ok v), s    => finish v s

theorem respond_map_eq_conclude {α : Type} (d : Except ErrorKind α) (f : α → Result) (s : State)
    (hf : ∀ a, finish (f a) s = reply (f a) s) : respond (d.map f) s = conclude (.ok (d.map f)) s := by
  cases d with
  | error e => rfl
  | ok a => exact (hf a).symm

theorem emit_eq_conclude (r : Except ErrorKind (Bytes × Nat)) (s : State) :
    emit r s = conclude (.ok (r.map fun p => .packet p.1 p.2)) s := by
  cases r <;> rfl

/-- The state enters an operation only at its end. -/
theorem exec_eq_conclude (i : Instr) (s : State) : exec i s = conclude (outcomeOf i) s := by
  cases i with
  | extract | insert =>
    simp only [exec, execExtract, execInsert, outcomeOf]
    split <;> rfl
  | decWr | decRd | decCpl | decAny => exact respond_map_eq_conclude _ _ s fun _ => rfl
  | encWr | encCpl => exact emit_eq_conclude _ s
  | encRd | valFormat | valLength | valCapacity | reservedC | reservedD | reservedE | reservedF => rfl

/-- The error kind or the result is what the response says. -/
theorem conclude_next_response {a : Except ErrorKind Result} {s t : State} (h : conclude (.ok a) s = .next t) :
    t.response = some (responseOf a) := by
  rcases a with e | ⟨_ | _ | _ | _ | ⟨out, olen⟩⟩
  case ok.packet =>
    obtain ⟨_, _, hp, -, rfl⟩ | ⟨_, hp, -⟩ := emit_next (r := .ok (out, olen)) h <;> cases hp
    rfl
  all_goals
    cases h
    rfl

theorem exec_next_response {i : Instr} {s t : State} (h : exec i s = .next t) :
    ∃ a, outcomeOf i = .ok a ∧ t.response = some (responseOf a) := by
  rw [exec_eq_conclude] at h
  cases ha : outcomeOf i with
  | error f =>
    rw [ha] at h
    cases h
  | ok a =>
    rw [ha] at h
    exact ⟨a, rfl, conclude_next_response h⟩

theorem map_eq_ok_iff {ε α β : Type} {d : Except ε α} {f : α → β} {b : β} :
    d.map f = .ok b ↔ ∃ a, d = .ok a ∧ f a = b := by
  cases d <;> simp [Except.map]

/-! ## Performing the request taken -/

/-- Settles O1: the request is admitted, and the state it runs on is `accept`. -/
theorem stepPerformsTheDecodedRequest : Obligations.StepPerformsTheDecodedRequest := by
  intro s p rest i hin hu ha hd
  exact step_admitted hin ((admission_ok_iff p i).mpr ⟨hu, ha, hd⟩)

/-! ## What a step depends on -/

theorem admission_eq_of_decode {p q : Presented} (hu : p.unstable = q.unstable) (ha : p.aliased = q.aliased)
    (hd : decode p.req = decode q.req) : admission p = admission q := by
  simp only [admission, hu, ha, hd]

/-- R25, R76: the fields an operation reads determine it. -/
theorem decodeFields_eq_of_sameReading {r r' : Request} (h : r.sameReading r' = true) :
    decodeFields r = decodeFields r' := by
  obtain ⟨hop, hread⟩ : r.op = r'.op ∧ ∀ f ∈ readFields r.op, r.agreesOn r' f = true := by
    simpa [Request.sameReading] using h
  have hop' := hop.symm
  rcases op_cases r.op with ho | ho | ho | ho | ho | ho | ho | ho | ho | ho | ho | ho | ho | ho | ho | ho <;>
    rw [ho] at hread hop' <;>
    simp [readFields, Request.agreesOn] at hread <;>
    simp [decodeFields, ho, hop', hread]

theorem decode_eq_of_sameReading {r r' : Request} (hb : r.buf.length ≤ Config.maxBufBytes)
    (hd : r.data.length ≤ Config.maxDataBytes) (hb' : r'.buf.length ≤ Config.maxBufBytes)
    (hd' : r'.data.length ≤ Config.maxDataBytes) (h : r.sameReading r' = true) : decode r = decode r' := by
  rw [(decode_ok_iff r _).mpr ⟨hb, hd, rfl⟩, (decode_ok_iff r' _).mpr ⟨hb', hd', rfl⟩,
    decodeFields_eq_of_sameReading h]

/-- Settles O7: the two requests are admitted alike, and the operation runs on the same accepted state. -/
theorem unreadRequestFieldsHaveNoEffect : Obligations.UnreadRequestFieldsHaveNoEffect := by
  intro s s' p r' rest hin hin' hb hd hb' hd' hsame
  have hadm : admission p = admission { p with req := r' } :=
    admission_eq_of_decode rfl rfl (decode_eq_of_sameReading hb hd hb' hd' hsame)
  cases ha : admission p with
  | error q => rw [step_refused hin ha, step_refused hin' (hadm ▸ ha)]
  | ok i =>
    rw [step_admitted hin ha, step_admitted hin' (hadm ▸ ha)]
    rfl

/-- The same outcome with these inputs still waiting. -/
def withInputs (rest : List Input) : Host.Outcome State Fault Refusal → Host.Outcome State Fault Refusal
  | .next t    => .next { t with inputs := rest }
  | .fault f   => .fault f
  | .refused r => .refused r

theorem deliver_withInputs (out : Bytes) (olen : Nat) (s : State) (rest : List Input) :
    deliver out olen { s with inputs := rest } = withInputs rest (deliver out olen s) := by
  unfold deliver
  cases capacityAllows s.outCap out.length <;> rfl

theorem conclude_withInputs (o : Except Fault (Except ErrorKind Result)) (s : State) (rest : List Input) :
    conclude o { s with inputs := rest } = withInputs rest (conclude o s) := by
  rcases o with f | e | ⟨_ | _ | _ | _ | ⟨out, olen⟩⟩
  case ok.ok.packet => exact deliver_withInputs out olen s rest
  all_goals rfl

/-- R54: no operation sees or changes the inputs that wait. -/
theorem exec_withInputs (i : Instr) (s : State) (rest : List Input) :
    exec i { s with inputs := rest } = withInputs rest (exec i s) := by
  rw [exec_eq_conclude, exec_eq_conclude, conclude_withInputs]

/-- R20, R50: a step that takes a request sees nothing else of the state. -/
theorem step_eq_withInputs {s s' : State} {p : Presented} {rest rest' : List Input}
    (h : s.inputs = .request p :: rest) (h' : s'.inputs = .request p :: rest') :
    step s' = withInputs rest' (step s) := by
  cases ha : admission p with
  | error r =>
    rw [step_refused h ha, step_refused h' ha]
    rfl
  | ok i =>
    rw [step_admitted h ha, step_admitted h' ha]
    exact exec_withInputs i (accept p rest) rest'

/-- Settles O8: the second step is the first with the other inputs still waiting. -/
theorem aStepDependsOnItsRequestAlone : Obligations.AStepDependsOnItsRequestAlone := by
  intro s s' p rest rest' hin hin'
  rw [step_eq_withInputs hin hin']
  refine ⟨fun t ht => ?_, fun f hf => ?_, fun r hr => ?_⟩
  · rw [ht]
    rfl
  · rw [hf]
    rfl
  · rw [hr]
    rfl

/-! ## The fields of a response -/

theorem err_code_ne_zero (e : ErrorKind) : (Response.err e).code ≠ 0 := by
  cases e <;> decide

theorem err_carriesNothing (e : ErrorKind) : carriesNothing (.err e) := ⟨rfl, rfl, rfl, rfl, rfl, rfl⟩

/-- R26, R200: DEC_ANY's kind is that of its record. -/
theorem decAny_carries {buf : Bytes} {k : PacketKind} {rec : Record} (h : decodeAny codes buf = .ok (k, rec)) :
    carries (.decAny buf) (.ok (.tagged k rec)) := by
  refine ⟨?_, rfl, rfl, rfl, rfl⟩
  obtain ⟨rfl, ⟨q, rfl, -⟩ | ⟨w, rfl, -⟩ | ⟨q, rfl, -⟩⟩ := decodeAny_ok h
  · exact .inl ⟨rfl, q, rfl⟩
  · exact .inr (.inl ⟨rfl, w, rfl⟩)
  · exact .inr (.inr ⟨rfl, q, rfl⟩)

/-- R45: a packet of the length it reports is what an encoder's response carries. -/
theorem packet_fields {out : Bytes} {n : Nat} (h : n = out.length) :
    let r : Response := .ok (.packet out n)
    (∃ o, r.out = some o ∧ r.olen = some o.length) ∧ r.result = none ∧ r.flag = none ∧ r.kind = none ∧
      r.record = none :=
  ⟨⟨out, rfl, congrArg some h⟩, rfl, rfl, rfl, rfl⟩

/-- R26, R76: a result has the fields of its operation. -/
theorem outcomeOf_carries {i : Instr} {v : Result} (h : outcomeOf i = .ok (.ok v)) : carries i (.ok v) := by
  cases i with
  | extract | insert =>
    simp only [outcomeOf] at h
    split at h <;> cases h
    exact ⟨rfl, rfl, rfl, rfl, rfl, rfl⟩
  | valFormat | valLength | valCapacity =>
    cases h
    exact ⟨rfl, rfl, rfl, rfl, rfl, rfl⟩
  | decWr | decRd | decCpl =>
    obtain ⟨r, -, rfl⟩ := map_eq_ok_iff.mp (Except.ok.inj h)
    exact ⟨⟨r, rfl⟩, rfl, rfl, rfl, rfl, rfl⟩
  | decAny =>
    obtain ⟨kr, hd, rfl⟩ := map_eq_ok_iff.mp (Except.ok.inj h)
    exact decAny_carries hd
  | encWr =>
    obtain ⟨p, hp, rfl⟩ := map_eq_ok_iff.mp (Except.ok.inj h)
    exact packet_fields (encodeWrite_length hp).1
  | encCpl =>
    obtain ⟨p, hp, rfl⟩ := map_eq_ok_iff.mp (Except.ok.inj h)
    exact packet_fields (encodeCompletion_length hp).1
  | encRd =>
    cases h
    exact packet_fields rfl
  | reservedC | reservedD | reservedE | reservedF => cases h

/-- Settles O42: the response is an error kind, which has no field, or a result, which has its operation's. -/
theorem responsesCarryExactlyTheirFields : Obligations.ResponsesCarryExactlyTheirFields := by
  intro i s t h
  obtain ⟨a, ha, hr⟩ := exec_next_response h
  refine ⟨responseOf a, hr, ?_⟩
  cases a with
  | error e => exact ⟨fun h0 => absurd h0 (err_code_ne_zero e), fun _ => err_carriesNothing e⟩
  | ok v => exact ⟨fun _ => outcomeOf_carries ha, fun h0 => absurd rfl h0⟩

/-! ## The invariant -/

/-- R27: a response that is no packet is well formed, whatever the output buffer holds. -/
theorem outcomeOf_wf {i : Instr} {a : Except ErrorKind Result} (h : outcomeOf i = .ok a)
    (hout : (responseOf a).out = none) (m : Memory) : (responseOf a).wf codes m = true := by
  rcases a with e | v
  · rfl
  cases i with
  | extract | insert =>
    simp only [outcomeOf] at h
    split at h <;> cases h
    rfl
  | valFormat | valLength | valCapacity =>
    cases h
    rfl
  | decWr =>
    obtain ⟨r, hd, rfl⟩ := map_eq_ok_iff.mp (Except.ok.inj h)
    exact decodeWrite_wf hd
  | decRd =>
    obtain ⟨r, hd, rfl⟩ := map_eq_ok_iff.mp (Except.ok.inj h)
    exact decodeRead_wf hd
  | decCpl =>
    obtain ⟨r, hd, rfl⟩ := map_eq_ok_iff.mp (Except.ok.inj h)
    exact decodeCompletion_wf hd
  | decAny =>
    obtain ⟨kr, hd, rfl⟩ := map_eq_ok_iff.mp (Except.ok.inj h)
    obtain ⟨hwf, hkind⟩ := decodeAny_wf hd
    simp [Response.wf, hwf, hkind]
  | encWr | encCpl =>
    obtain ⟨p, -, rfl⟩ := map_eq_ok_iff.mp (Except.ok.inj h)
    cases hout
  | encRd =>
    cases h
    cases hout
  | reservedC | reservedD | reservedE | reservedF => cases h

/-- Each cell holds the byte at its offset. -/
theorem getElem?_of_mem_cellsFrom {bs : Bytes} {a : Nat} {c : Host.Cell} (h : c ∈ cellsFrom a bs) :
    bs[c.1 - a]? = some c.2 := by
  induction bs generalizing a with
  | nil => cases h
  | cons b bs ih =>
    obtain rfl | h := List.mem_cons.mp h
    · simp
    · obtain ⟨hle, -⟩ := cellsFrom_mem h
      rw [show c.1 - a = c.1 - (a + 1) + 1 by omega, List.getElem?_cons_succ, ih h]

/-- R45: a packet stored stands in the output buffer. -/
theorem packet_wf_store (out : Bytes) (m : Memory) :
    (Response.ok (.packet out out.length)).wf codes (Memory.store out m) = true := by
  simp only [Response.wf, beq_self_eq_true, Bool.true_and, List.all_eq_true, beq_iff_eq]
  intro c hc
  obtain ⟨-, hlt⟩ := cellsFrom_mem hc
  rw [Memory.read_store, if_pos (by omega)]
  exact getElem?_of_mem_cellsFrom hc

theorem bufferOk_store {cap : Option Nat} {out : Bytes} {m : Memory} (hc : capacityAllows cap out.length = true)
    (h : bufferOk cap m = true) : bufferOk cap (Memory.store out m) = true := by
  rw [bufferOk, Bool.and_eq_true] at h ⊢
  obtain ⟨hwf, hin⟩ := h
  exact ⟨Memory.store_wf out m hwf, Memory.store_within cap out m hc hin⟩

/-- Every operation keeps the invariant. -/
theorem exec_keeps_inv {i : Instr} {s t : State} (h : exec i s = .next t) (hs : s.Inv) : t.Inv := by
  obtain ⟨hbuf, hins, -⟩ := hs
  obtain ⟨a, ha, hr⟩ := exec_next_response h
  obtain ⟨r, rfl, hout, -⟩ | ⟨out, olen, -, rfl, hcap, rfl⟩ := exec_next h
  · obtain rfl : r = responseOf a := Option.some.inj hr
    refine ⟨hbuf, hins, ?_⟩
    rintro _ ⟨⟩
    exact outcomeOf_wf ha hout s.outBuf
  · refine ⟨bufferOk_store hcap hbuf, hins, ?_⟩
    rintro _ ⟨⟩
    exact packet_wf_store out s.outBuf

/-- A state without a response has the invariant where its buffers are in order. -/
theorem inv_of_no_response {s : State} (hr : s.response = none) (hbuf : bufferOk s.outCap s.outBuf = true)
    (hins : s.inputs.all Input.wf = true) : s.Inv := by
  refine ⟨hbuf, hins, fun r h => ?_⟩
  rw [hr] at h
  cases h

/-- What holds of all waiting inputs holds of the oldest and of the rest. -/
theorem inputs_all_cons {f : Input → Bool} {s : State} {x : Input} {rest : List Input} (hin : s.inputs = x :: rest)
    (h : s.inputs.all f = true) : f x = true ∧ rest.all f = true := by
  rwa [hin, List.all_cons, Bool.and_eq_true] at h

/-- Settles O50: taking an input puts a buffer in order in place and leaves no response, and every operation keeps the
invariant. -/
theorem everyStepKeepsTheInvariant : Obligations.EveryStepKeepsTheInvariant := by
  intro s t hs h
  have ⟨hbuf, hins, _⟩ := hs
  obtain ⟨-, rfl⟩ | ⟨f, rest, hin, rfl⟩ | ⟨p, rest, i, hin, -, hexec⟩ := step_next h
  · exact hs
  · obtain ⟨hf, hrest⟩ := inputs_all_cons hin hins
    cases f with
    | none => exact inv_of_no_response rfl hbuf hrest
    | some p => exact inv_of_no_response rfl hf hrest
  · obtain ⟨hp, hrest⟩ := inputs_all_cons hin hins
    exact exec_keeps_inv hexec (inv_of_no_response rfl hp hrest)

/-! ## Correct callers are answered -/

/-- R102, R77: an operation in its range comes to an error kind or a result. -/
theorem outcomeOf_of_faultless {i : Instr} (h : faultless i = true) : ∃ a, outcomeOf i = .ok a := by
  cases i with
  | extract | insert => exact ⟨_, if_pos h⟩
  | reservedC | reservedD | reservedE | reservedF => cases h
  | _ => exact ⟨_, rfl⟩

/-- R123, R142, R162: no packet is longer than its operation's bound. -/
theorem outcomeOf_packet_le {i : Instr} {out : Bytes} {n : Nat} (h : outcomeOf i = .ok (.ok (.packet out n))) :
    out.length ≤ outputBound i := by
  cases i with
  | encWr =>
    obtain ⟨p, hp, ⟨⟩⟩ := map_eq_ok_iff.mp (Except.ok.inj h)
    exact (encodeWrite_length hp).2.le
  | encCpl =>
    obtain ⟨p, hp, ⟨⟩⟩ := map_eq_ok_iff.mp (Except.ok.inj h)
    exact (encodeCompletion_length hp).2.le
  | encRd =>
    cases h
    exact Nat.le_refl 12
  | decWr | decRd | decCpl | decAny =>
    obtain ⟨_, -, hp⟩ := map_eq_ok_iff.mp (Except.ok.inj h)
    cases hp
  | extract | insert =>
    simp only [outcomeOf] at h
    split at h <;> cases h
  | valFormat | valLength | valCapacity | reservedC | reservedD | reservedE | reservedF => cases h

theorem capacityAllows_mono {cap : Option Nat} {m n : Nat} (hmn : m ≤ n) (h : capacityAllows cap n = true) :
    capacityAllows cap m = true := by
  rw [capacityAllows_iff] at h ⊢
  exact fun k hk => hmn.trans (h k hk)

/-- R22: an operation without a fault, whose output fits, ends in a response and leaves the waiting inputs alone. -/
theorem exec_answers {i : Instr} {s : State} (hf : faultless i = true)
    (hc : capacityAllows s.outCap (outputBound i) = true) :
    ∃ t r, exec i s = .next t ∧ t.response = some r ∧ t.inputs = s.inputs := by
  obtain ⟨a, ha⟩ := outcomeOf_of_faultless hf
  rw [exec_eq_conclude, ha]
  rcases a with e | ⟨_ | _ | _ | _ | ⟨out, olen⟩⟩
  case ok.packet =>
    have hfits := capacityAllows_mono (outcomeOf_packet_le ha) hc
    exact ⟨s.delivered out olen, _, deliver_of_fits hfits, rfl, rfl⟩
  all_goals exact ⟨_, _, rfl, rfl, rfl⟩

theorem sound_iff (p : Presented) :
    p.sound = true ↔
      ∃ i, admission p = .ok i ∧ faultless i = true ∧ capacityAllows p.outCap (outputBound i) = true := by
  rw [Presented.sound]
  cases admission p <;> simp

/-- Settles O52: the request is admitted, and its operation answers. -/
theorem everySoundRequestIsAnsweredInOneStep : Obligations.EverySoundRequestIsAnsweredInOneStep := by
  intro s p rest hin hp
  obtain ⟨i, ha, hf, hc⟩ := (sound_iff p).mp hp
  rw [step_admitted hin ha]
  exact exec_answers hf hc

/-- One step takes the oldest of a correct caller's inputs, and answers it where it is a request. -/
theorem step_takes_sound_input {s : State} {x : Input} {rest : List Input} (hin : s.inputs = x :: rest)
    (hx : x.sound = true) :
    ∃ t, step s = .next t ∧ t.inputs = rest ∧ ∀ p, x = .request p → ∃ r, t.response = some r := by
  cases x with
  | reset f => exact ⟨takeReset f rest s, step_reset hin, by simp, nofun⟩
  | request p =>
    obtain ⟨t, r, hstep, hr, ht⟩ := everySoundRequestIsAnsweredInOneStep s p rest hin hx
    exact ⟨t, hstep, ht, fun _ _ => ⟨r, hr⟩⟩

theorem run_succ_of_step {s t : State} (h : step s = .next t) (n : Nat) :
    Host.Core.run core (n + 1) s = Host.Core.run core n t := by
  have hstep : core.step s = .next t := h
  simp only [Host.Core.run, hstep]

/-- As many steps as inputs wait take them all. -/
theorem run_takes_sound_inputs {xs : List Input} {s : State} (hin : s.inputs = xs)
    (hs : xs.all Input.sound = true) :
    ∃ u : State, Host.Core.run core xs.length s = .next u ∧ u.inputs = [] := by
  induction xs generalizing s with
  | nil => exact ⟨s, rfl, hin⟩
  | cons x xs ih =>
    obtain ⟨hx, hxs⟩ := inputs_all_cons hin (hin ▸ hs)
    obtain ⟨t, hstep, ht, -⟩ := step_takes_sound_input hin hx
    rw [List.length_cons, run_succ_of_step hstep]
    exact ih ht hxs

/-- A run of correct callers' inputs never stops: once none waits, it idles. -/
theorem runsSafely_of_sound_inputs (n : Nat) {s : State} (hs : s.inputs.all Input.sound = true) :
    RunsSafely n s := by
  induction n generalizing s with
  | zero => trivial
  | succ n ih =>
    cases hin : s.inputs with
    | nil => exact ⟨s, step_idle hin, ih hs⟩
    | cons x rest =>
      obtain ⟨hx, hrest⟩ := inputs_all_cons hin hs
      obtain ⟨t, hstep, ht, -⟩ := step_takes_sound_input hin hx
      exact ⟨t, hstep, ih (ht ▸ hrest)⟩

/-- Settles O51: one step takes one sound input and leaves the others; the rest is induction on the inputs and on the
number of steps. -/
theorem correctCallersAreAlwaysAnswered : Obligations.CorrectCallersAreAlwaysAnswered := by
  intro s hs
  refine ⟨fun x rest hin => ?_, run_takes_sound_inputs rfl hs, fun n => runsSafely_of_sound_inputs n hs⟩
  obtain ⟨hx, hrest⟩ := inputs_all_cons hin hs
  obtain ⟨t, hstep, ht, hr⟩ := step_takes_sound_input hin hx
  exact ⟨t, hstep, ht, ht ▸ hrest, hr⟩

end Sys2Proof.Machine

/-! SUPPORT. The statements on the caller's memory: why a request is refused before its operation begins, the order in which
bytes are read and copied, what a response says of the codec behind it, and what is written to the output buffer. -/

namespace Sys2Proof.Machine

open Sys2Proof.Expect

/-! ## Each request of a run by itself -/

/-- R20: taken in any state, a correct caller's request is answered as it is on a block that has done nothing else. -/
theorem step_answers_as_alone {s : State} {p : Presented} {rest : List Input} (hin : s.inputs = .request p :: rest)
    (hp : p.sound = true) :
    ∃ t u r, step s = .next t ∧ t.inputs = rest ∧ soleAnswer p = .next u ∧ u.response = some r ∧
      t.response = some r ∧ t.outBuf = u.outBuf := by
  obtain ⟨t, r, hstep, hr, ht⟩ := everySoundRequestIsAnsweredInOneStep s p rest hin hp
  have halone : soleAnswer p = withInputs [] (step s) := step_eq_withInputs hin rfl
  rw [hstep] at halone
  exact ⟨t, { t with inputs := [] }, r, hstep, ht, halone, hr, hr, rfl⟩

/-- Settles O9, by induction on the requests: one step takes the oldest, and the run goes on with the others from whatever
state that step left. -/
theorem everyOrderGivesEachRequestItsOwnAnswer : Obligations.EveryOrderGivesEachRequestItsOwnAnswer := by
  intro s ps rest k p hin hps hk
  induction ps generalizing s k with
  | nil => cases hk
  | cons q qs ih =>
    obtain ⟨hq, hqs⟩ := List.forall_mem_cons.mp hps
    obtain ⟨t, u, r, hstep, ht, halone, hu, hr, hbuf⟩ := step_answers_as_alone hin hq
    rw [run_succ_of_step hstep]
    cases k with
    | zero =>
      obtain rfl : q = p := Option.some.inj hk
      exact ⟨t, u, r, rfl, halone, hu, hr, hbuf⟩
    | succ k => exact ih t k ht hqs hk

/-! ## Requests refused before their operation begins -/

section Admission

variable {p : Presented}

theorem admission_of_unstable (hu : p.unstable = true) : admission p = .error .unstableBuffers := by
  simp [admission, hu]

theorem admission_of_aliased (hu : p.unstable = false) (ha : p.aliased = true) :
    admission p = .error .aliasedBuffers := by
  simp [admission, hu, ha]

theorem admission_of_long_buf (hu : p.unstable = false) (ha : p.aliased = false)
    (hb : Config.maxBufBytes < p.req.buf.length) : admission p = .error .bufTooLong := by
  have hfit : ¬ Config.bufFits p.req.buf.length = true := by
    rw [Config.bufFits_iff]
    omega
  simp [admission, hu, ha, decode, hfit]

theorem admission_of_long_data (hu : p.unstable = false) (ha : p.aliased = false)
    (hb : p.req.buf.length ≤ Config.maxBufBytes) (hd : Config.maxDataBytes < p.req.data.length) :
    admission p = .error .dataTooLong := by
  have hfit : ¬ Config.dataFits p.req.data.length = true := by
    rw [Config.dataFits_iff]
    omega
  simp [admission, hu, ha, decode, (Config.bufFits_iff _).mpr hb, hfit]

end Admission

/-- Settles O5: a request told unstable is refused as such, and one told only aliased as that. -/
theorem requestsToldUnstableOrAliasedAreRefused : Obligations.RequestsToldUnstableOrAliasedAreRefused := by
  intro s p rest hin
  have unstable (hu : p.unstable = true) : step s = .refused .unstableBuffers :=
    step_refused hin (admission_of_unstable hu)
  have aliased (hu : p.unstable = false) (ha : p.aliased = true) : step s = .refused .aliasedBuffers :=
    step_refused hin (admission_of_aliased hu ha)
  refine ⟨fun htold => ?_, fun _ _ => ⟨fun hu _ => unstable hu, aliased, fun hu _ => .inl (unstable hu)⟩⟩
  cases hu : p.unstable with
  | true => exact ⟨_, unstable hu, .inl rfl⟩
  | false => exact ⟨_, aliased hu (htold.resolve_left (by simp [hu])), .inr (.inl rfl)⟩

/-- Settles O6: `buf` is measured first, then `data`, and a request within both limits decodes. -/
theorem requestsBeyondTheSizeLimitsAreRefused : Obligations.RequestsBeyondTheSizeLimitsAreRefused := by
  refine ⟨Nat.le_add_right _ _, Nat.le_add_right _ _, fun s p rest hin hu ha => ?_,
    fun r hb hd => ⟨_, (decode_ok_iff r _).mpr ⟨hb, hd, rfl⟩⟩⟩
  have long_buf (hb : Config.maxBufBytes < p.req.buf.length) : step s = .refused .bufTooLong :=
    step_refused hin (admission_of_long_buf hu ha hb)
  exact ⟨fun hb _ => long_buf hb, fun hb hd => step_refused hin (admission_of_long_data hu ha hb hd),
    fun hb _ => .inl (long_buf hb)⟩

/-! ## Bytes read and copied in order -/

/-- R13: two bit sequences joined, as a number. -/
theorem toNat_append_eq_add {m n : Nat} (x : BitVec m) (y : BitVec n) :
    (x ++ y).toNat = x.toNat * 2 ^ n + y.toNat := by
  rw [BitVec.toNat_append, ← Nat.shiftLeft_add_eq_or_of_lt y.isLt, Nat.shiftLeft_eq]

/-- Settles O14: all four bytes lie inside the sequence, and joined they weigh as their places say. -/
theorem dwordsAreReadLittleEndian : Obligations.DwordsAreReadLittleEndian := by
  intro s k h
  rw [dw, byteAt_of_lt s _ h, byteAt_of_lt s (4 * k + 2) (by omega), byteAt_of_lt s (4 * k + 1) (by omega),
    byteAt_of_lt s (4 * k) (by omega)]
  simp only [toNat_append_eq_add]
  omega

theorem slice_getElem? (s : Bytes) (a b j : Nat) (h : a + j < b) : (slice s a b)[j]? = s[a + j]? := by
  rw [slice, List.getElem?_drop, List.getElem?_take_of_lt h]

/-- R61: the rest of a packet begins at byte 12. -/
theorem packet_getElem? (w0 w1 w2 : Word) (rest : Bytes) (j : Nat) :
    (packet w0 w1 w2 rest)[12 + j]? = rest[j]? := by
  have header_length : (bytes4 w0 ++ bytes4 w1 ++ bytes4 w2).length = 12 := rfl
  rw [packet, ← header_length, List.getElem?_append_right (Nat.le_add_right _ j), Nat.add_sub_cancel_left]

/-- A slice of `n` bytes from the end of the header. -/
theorem payload_slice {buf : Bytes} {n : Nat} (h : 12 + n ≤ buf.length) :
    (slice buf 12 (12 + n)).length = n ∧
      ∀ j, j < (slice buf 12 (12 + n)).length → (slice buf 12 (12 + n))[j]? = buf[12 + j]? := by
  have hlen : (slice buf 12 (12 + n)).length = n := by
    rw [slice_length _ _ _ h, Nat.add_sub_cancel_left]
  refine ⟨hlen, fun j hj => slice_getElem? buf 12 _ j ?_⟩
  omega

theorem decodeWrite_payload {c : Config.Codes} {buf : Bytes} {w : WriteRequest} (h : decodeWrite c buf = .ok w) :
    w.payload.length = 4 * w.length.toNat ∧ ∀ j, j < w.payload.length → w.payload[j]? = buf[12 + j]? := by
  obtain ⟨-, -, -, -, hcap, rfl⟩ := (decodeWrite_ok_iff c buf w).mp h
  exact payload_slice (by omega)

theorem decodeCompletion_payload {c : Config.Codes} {buf : Bytes} {q : Completion}
    (h : decodeCompletion c buf = .ok q) :
    q.payload.length = 4 * q.length.toNat ∧ ∀ j, j < q.payload.length → q.payload[j]? = buf[12 + j]? := by
  obtain ⟨-, -, -, -, hcap, rfl⟩ := (decodeCompletion_ok_iff c buf q).mp h
  exact payload_slice hcap

theorem encodeWrite_payload {c : Config.Codes} {address : Word} {data : Bytes} {be tag : Byte} {out : Bytes} {n : Nat}
    (h : encodeWrite c address data be tag = .ok (out, n)) {j : Nat} (hj : j < data.length) :
    out[12 + j]? = data[j]? := by
  obtain ⟨-, -, -, hp⟩ := (encodeWrite_ok_iff ..).mp h
  obtain ⟨rfl, -⟩ := Prod.mk.inj hp
  rw [List.append_assoc, le32_append_eq_packet, packet_getElem?, List.getElem?_append_left hj]

theorem encodeCompletion_payload {c : Config.Codes} {data : Bytes} {status : BitVec 3} {tag : Byte} {out : Bytes}
    {n : Nat} (h : encodeCompletion c data status tag = .ok (out, n)) (j : Nat) : out[12 + j]? = data[j]? := by
  obtain ⟨-, -, -, hp⟩ := (encodeCompletion_ok_iff ..).mp h
  obtain ⟨rfl, -⟩ := Prod.mk.inj hp
  rw [le32_append_eq_packet, packet_getElem?]

/-! ## What a response says of the codec behind it -/

/-- A response with code OK is the result its operation came to. -/
theorem outcomeOf_of_response {i : Instr} {s t : State} {v : Result} (h : exec i s = .next t)
    (hr : t.response = some (.ok v)) : outcomeOf i = .ok (.ok v) := by
  obtain ⟨a, ha, hresp⟩ := exec_next_response h
  rw [hr] at hresp
  cases a with
  | error e => cases hresp
  | ok w =>
    cases hresp
    exact ha

section Codecs

variable {s t : State}

theorem decodeWrite_of_response {buf : Bytes} {w : WriteRequest} (h : exec (.decWr buf) s = .next t)
    (hr : t.response = some (.ok (.record (.write w)))) : decodeWrite codes buf = .ok w := by
  obtain ⟨_, hd, ⟨⟩⟩ := map_eq_ok_iff.mp (Except.ok.inj (outcomeOf_of_response h hr))
  exact hd

theorem decodeCompletion_of_response {buf : Bytes} {q : Completion} (h : exec (.decCpl buf) s = .next t)
    (hr : t.response = some (.ok (.record (.completion q)))) : decodeCompletion codes buf = .ok q := by
  obtain ⟨_, hd, ⟨⟩⟩ := map_eq_ok_iff.mp (Except.ok.inj (outcomeOf_of_response h hr))
  exact hd

theorem encodeWrite_of_response {address : Word} {data : Bytes} {be tag : Byte} {out : Bytes} {n : Nat}
    (h : exec (.encWr address data be tag) s = .next t) (hr : t.response = some (.ok (.packet out n))) :
    encodeWrite codes address data be tag = .ok (out, n) := by
  obtain ⟨_, he, ⟨⟩⟩ := map_eq_ok_iff.mp (Except.ok.inj (outcomeOf_of_response h hr))
  exact he

theorem encodeCompletion_of_response {data : Bytes} {status : BitVec 3} {tag : Byte} {out : Bytes} {n : Nat}
    (h : exec (.encCpl data status tag) s = .next t) (hr : t.response = some (.ok (.packet out n))) :
    encodeCompletion codes data status tag = .ok (out, n) := by
  obtain ⟨_, he, ⟨⟩⟩ := map_eq_ok_iff.mp (Except.ok.inj (outcomeOf_of_response h hr))
  exact he

end Codecs

/-- Settles O29: the codec behind the response succeeded, and its payload is a slice of `buf`, or its packet `data` after
three dwords. -/
theorem payloadBytesAreCopiedInOrder : Obligations.PayloadBytesAreCopiedInOrder :=
  ⟨fun _ _ _ _ h hr => decodeWrite_payload (decodeWrite_of_response h hr),
    fun _ _ _ _ h hr => decodeCompletion_payload (decodeCompletion_of_response h hr),
    fun _ _ _ _ _ hr =>
      ⟨fun _ _ _ h _ hj => encodeWrite_payload (encodeWrite_of_response h hr) hj,
        fun _ _ h j _ => encodeCompletion_payload (encodeCompletion_of_response h hr) j⟩⟩

/-! ## Output that does not fit its buffer -/

theorem not_capacityAllows {cap : Option Nat} {k n : Nat} (hcap : cap = some k) (h : k < n) :
    capacityAllows cap n = false := by
  simp [capacityAllows, hcap, h]

/-- R46: a packet longer than the output buffer is refused, whichever encoder gave it. -/
theorem emit_of_too_long {r : Except ErrorKind (Bytes × Nat)} {out : Bytes} {n k : Nat} {s : State}
    (hr : r = .ok (out, n)) (hcap : s.outCap = some k) (h : k < out.length) : emit r s = .refused .outputTooLong := by
  subst hr
  exact deliver_of_too_long (not_capacityAllows hcap h)

/-- R68: the recognized statuses are those of the spec's table. -/
theorem statusRecognized_of_isStatus {st : BitVec 3} (h : isStatus st.toNat) : statusRecognized codes st = true := by
  unfold isStatus at h
  revert st
  decide

/-- R46: an operation is refused only for a packet that does not fit. -/
theorem conclude_refused {o : Except Fault (Except ErrorKind Result)} {s : State} {r : Refusal}
    (h : conclude o s = .refused r) :
    ∃ out olen, o = .ok (.ok (.packet out olen)) ∧ capacityAllows s.outCap out.length = false := by
  rcases o with f | e | ⟨_ | _ | _ | _ | ⟨out, olen⟩⟩
  case ok.ok.packet =>
    refine ⟨out, olen, rfl, Bool.eq_false_iff.mpr fun hc => ?_⟩
    have hnext : conclude (.ok (.ok (.packet out olen))) s = .next (s.delivered out olen) := deliver_of_fits hc
    rw [hnext] at h
    cases h
  all_goals cases h

/-- Settles O33: each encoder's packet has its operation's length and does not fit, and an unbounded buffer holds every
packet. -/
theorem outputLongerThanItsBufferIsRefused : Obligations.OutputLongerThanItsBufferIsRefused := by
  refine ⟨fun s k hcap => ⟨?encWr, ?encRd, ?encCpl⟩, ?unbounded⟩
  case encWr =>
    intro a data be tag hpos hle h4 hk
    have henc := (encodeWrite_ok_iff codes a data be tag _).mpr ⟨hpos, hle, h4, rfl⟩
    obtain ⟨-, hlen⟩ := encodeWrite_length henc
    exact emit_of_too_long henc hcap (hlen ▸ hk)
  case encRd =>
    intro a tag hk
    exact emit_of_too_long rfl hcap hk
  case encCpl =>
    intro data st tag hle h4 hst hk
    have henc := (encodeCompletion_ok_iff codes data st tag _).mpr ⟨hle, h4, statusRecognized_of_isStatus hst, rfl⟩
    obtain ⟨-, hlen⟩ := encodeCompletion_length henc
    exact emit_of_too_long henc hcap (hlen ▸ hk)
  case unbounded =>
    intro s i hcap h
    rw [exec_eq_conclude] at h
    obtain ⟨_, _, -, hlong⟩ := conclude_refused h
    rw [hcap] at hlong
    cases hlong

/-! ## What is written to the output buffer -/

/-- Settles O34: an operation answers without a packet, or delivers one, and a store is read back by `Memory.read_store`. -/
theorem onlyTheOutputOfAnEncoderIsWritten : Obligations.OnlyTheOutputOfAnEncoderIsWritten := by
  intro i s t h
  obtain ⟨r, rfl, hout, -⟩ | ⟨out, olen, hwrites, rfl, -, rfl⟩ := exec_next h
  · refine ⟨rfl, rfl, .inr ⟨?_, fun _ => rfl⟩⟩
    rintro out olen ⟨⟩
    cases hout
  · exact ⟨rfl, rfl, .inl ⟨out, _, hwrites, rfl, rfl, Memory.read_store out s.outBuf⟩⟩

/-- Settles O35: an operation that writes no output delivers nothing, so it only answers. -/
theorem operationsWithoutOutputChangeOnlyTheResponse :
    Obligations.OperationsWithoutOutputChangeOnlyTheResponse := by
  intro i s t hsilent h
  obtain ⟨r, rfl, -, -⟩ | ⟨_, _, hwrites, -⟩ := exec_next h
  · exact ⟨r, rfl⟩
  · rw [hsilent] at hwrites
    cases hwrites

end Sys2Proof.Machine

/-! SUPPORT. The statements on the encoding: requests and their operations, the fields of a word in plain arithmetic and
the pseudo-operations that read and replace them, buffers as dwords, the textual form read back, and the bits and bytes
no decoder looks at. -/

namespace Sys2Proof.Machine

open Sys2Proof.Expect

/-! ## Requests and their operations (R75 to R77) -/

/-- The per-operation laws of the encoding, for every operation. -/
theorem encoding_statement (i : Instr) : Laws.Encoding.Statement i := by
  cases i with
  | extract => exact Laws.Encoding.extract ..
  | insert => exact Laws.Encoding.insert ..
  | decWr => exact Laws.Encoding.decWr ..
  | encWr => exact Laws.Encoding.encWr ..
  | decRd => exact Laws.Encoding.decRd ..
  | encRd => exact Laws.Encoding.encRd ..
  | decCpl => exact Laws.Encoding.decCpl ..
  | encCpl => exact Laws.Encoding.encCpl ..
  | valFormat => exact Laws.Encoding.valFormat ..
  | valLength => exact Laws.Encoding.valLength ..
  | valCapacity => exact Laws.Encoding.valCapacity ..
  | decAny => exact Laws.Encoding.decAny ..
  | reservedC => exact Laws.Encoding.reservedC
  | reservedD => exact Laws.Encoding.reservedD
  | reservedE => exact Laws.Encoding.reservedE
  | reservedF => exact Laws.Encoding.reservedF

theorem decode_encode {i : Instr} (h : i.wellFormed = true) : decode (encode i) = .ok i := by
  obtain ⟨-, hfields, hwf⟩ := encoding_statement i
  obtain ⟨hb, hd⟩ := hwf.mp h
  exact (decode_ok_iff _ _).mpr ⟨(Config.bufFits_iff _).mp hb, (Config.dataFits_iff _).mp hd, hfields⟩

theorem decodeFields_wellFormed {r : Request} (hb : r.buf.length ≤ Config.maxBufBytes)
    (hd : r.data.length ≤ Config.maxDataBytes) : (decodeFields r).wellFormed = true := by
  rw [← Config.bufFits_iff] at hb
  rw [← Config.dataFits_iff] at hd
  unfold decodeFields
  split <;> simp only [Instr.wellFormed, hb, hd]

/-- R76: an operation's own request carries every field that was read from the request it came from. -/
theorem sameReading_encode_decodeFields (r : Request) : r.sameReading (encode (decodeFields r)) = true := by
  rcases op_cases r.op with ho | ho | ho | ho | ho | ho | ho | ho | ho | ho | ho | ho | ho | ho | ho | ho <;>
    simp [Request.sameReading, readFields, Request.agreesOn, decodeFields, encode, blankRequest, Instr.opcode, ho]

/-- Settles O11: a well-formed operation is read back, by the laws of each operation, and a request that decodes is
presentable and is read as its operation's own request is. -/
theorem requestDecodingAndEncodingAgree : Obligations.RequestDecodingAndEncodingAgree := by
  refine ⟨fun i => decode_encode, fun r i h => ?_⟩
  obtain ⟨hb, hd, rfl⟩ := (decode_ok_iff r i).mp h
  exact ⟨decodeFields_wellFormed hb hd, sameReading_encode_decodeFields r⟩

/-- A word of the opcode table has no byte sequence that could be too long. -/
theorem decodeTableWord_eq (nbits w : Nat) :
    decodeTableWord nbits w = some (decodeFields (tableRequest nbits w)) := by
  have hd : decode (tableRequest nbits w) = .ok (decodeFields (tableRequest nbits w)) :=
    (decode_ok_iff _ _).mpr ⟨Nat.zero_le _, Nat.zero_le _, rfl⟩
  simp only [decodeTableWord, hd]

/-- Settles O10: each word is the blank request of its `op`, read by R75's map. -/
theorem opcodeTableWordsDecode : Obligations.OpcodeTableWordsDecode := by
  simp only [Obligations.OpcodeTableWordsDecode, decodeTableWord_eq]
  decide

/-- R77: an `op` of 12 or more faults, whatever its other fields hold. -/
theorem exec_decodeFields_reserved {r : Request} (h : 12 ≤ r.op.toNat) (s : State) :
    exec (decodeFields r) s = .fault .illegalOp := by
  have hlt := r.op.isLt
  have hop : r.op.toNat = 12 ∨ r.op.toNat = 13 ∨ r.op.toNat = 14 ∨ r.op.toNat = 15 := by omega
  rcases hop with ho | ho | ho | ho <;> simp only [decodeFields, ho] <;> rfl

/-- Settles O39: the request is admitted, and its operation faults. -/
theorem reservedOperationsFault : Obligations.ReservedOperationsFault := by
  refine ⟨rfl, fun _ => ⟨rfl, rfl, rfl, rfl⟩, fun s p rest hin hu ha hb hd hop => ?_⟩
  have hadm : admission p = .ok (decodeFields p.req) :=
    (admission_ok_iff p _).mpr ⟨hu, ha, (decode_ok_iff _ _).mpr ⟨hb, hd, rfl⟩⟩
  rw [step_admitted hin hadm, exec_decodeFields_reserved hop]

/-! ## The fields of a word in plain arithmetic (R11, R79) -/

/-- R11 bit by bit. -/
theorem bits_testBit (w : Word) (hi lo p : Nat) :
    (bits w hi lo).testBit p = (decide (p < hi - lo + 1) && w.getLsbD (lo + p)) := by
  rw [bits, Nat.testBit_mod_two_pow, Nat.testBit_div_two_pow, Nat.add_comm p lo, BitVec.getLsbD]

/-- R100: the field extracted is R11's number. -/
theorem extractField_eq_bits (w : Word) (hi lo : Nat) : extractField w hi lo = BitVec.ofNat 32 (bits w hi lo) := by
  refine BitVec.eq_of_getLsbD_eq fun p hp => ?_
  rw [extractField_getLsbD, BitVec.getLsbD_ofNat, bits_testBit, decide_eq_true hp, Bool.true_and, Bool.and_comm]

/-- R101: the field inserted holds the value, modulo the field's size. -/
theorem bits_insertField (w v : Word) {hi lo : Nat} (h : fieldInRange hi lo = true) :
    bits (insertField w v hi lo) hi lo = v.toNat % 2 ^ (hi - lo + 1) := by
  refine Nat.eq_of_testBit_eq fun p => ?_
  rw [bits_testBit, Nat.testBit_mod_two_pow, insertField_getLsbD w v hi lo (lo + p) h]
  by_cases hp : p < hi - lo + 1
  · obtain ⟨hle, -⟩ := (fieldInRange_iff hi lo).mp h
    rw [if_pos (by omega), Nat.add_sub_cancel_left, BitVec.getLsbD]
  · simp only [hp, decide_false, Bool.false_and]

theorem exec_extract_of_inRange {hi lo : Byte} (h : fieldInRange hi.toNat lo.toNat = true) (w : Word) (s : State) :
    exec (.extract w hi lo) s = .next (s.answered (.ok (.word (BitVec.ofNat 32 (bits w hi.toNat lo.toNat))))) := by
  rw [← extractField_eq_bits]
  exact if_pos h

theorem exec_insert_of_inRange {hi lo : Byte} (h : fieldInRange hi.toNat lo.toNat = true) (w v : Word) (s : State) :
    exec (.insert w v hi lo) s = .next (s.answered (.ok (.word (insertField w v hi.toNat lo.toNat)))) :=
  if_pos h

/-- R101: INSERT answers the word with its field replaced and every other bit kept. -/
theorem exec_insert_replaces {hi lo : Byte} (h : fieldInRange hi.toNat lo.toNat = true) (w v : Word) (s : State) :
    ∃ r : Word, exec (.insert w v hi lo) s = .next (s.answered (.ok (.word r))) ∧
      bits r hi.toNat lo.toNat = v.toNat % 2 ^ (hi.toNat - lo.toNat + 1) ∧
      ∀ k, k < 32 → k < lo.toNat ∨ hi.toNat < k → r.getLsbD k = w.getLsbD k :=
  ⟨_, exec_insert_of_inRange h w v s, bits_insertField w v h, fun k _ hk => insertField_keeps w v _ _ k h hk⟩

/-- Settles O12: the expansions are EXTRACT and INSERT at bounds in range. -/
theorem pseudoOperationsReadAndReplaceHeaderFields : Obligations.PseudoOperationsReadAndReplaceHeaderFields := by
  intro w v s gives replaces
  refine ⟨⟨rfl, rfl, rfl, rfl, rfl, rfl, rfl, rfl, rfl, rfl⟩, ⟨?_, ?_, ?_, ?_, ?_⟩, ⟨?_, ?_, ?_, ?_, ?_⟩⟩
  iterate 5 exact exec_extract_of_inRange (by decide) w s
  iterate 5 exact exec_insert_replaces (by decide) w v s

/-! ## Every long buffer is three dwords and a rest (R61) -/

/-- R41, R42: four bytes are those of the dword that joins them. -/
theorem bytes4_append (b0 b1 b2 b3 : Byte) : bytes4 (b3 ++ b2 ++ b1 ++ b0) = [b0, b1, b2, b3] := by
  have h0 := b0.isLt
  have h1 := b1.isLt
  have h2 := b2.isLt
  simp only [bytes4, toNat_append_eq_add, List.cons.injEq, and_true, ← BitVec.toNat_inj, BitVec.toNat_ofNat]
  omega

theorem exists_dword_of_length {buf : Bytes} (h : 4 ≤ buf.length) :
    ∃ w rest, buf = bytes4 w ++ rest ∧ buf.length = 4 + rest.length := by
  match buf, h with
  | b0 :: b1 :: b2 :: b3 :: rest, _ =>
    refine ⟨b3 ++ b2 ++ b1 ++ b0, rest, ?_, ?_⟩
    · rw [bytes4_append]
      rfl
    · simp only [List.length_cons]
      omega

theorem exists_packet_of_length {buf : Bytes} (h : 12 ≤ buf.length) :
    ∃ w0 w1 w2 rest, buf = packet w0 w1 w2 rest := by
  obtain ⟨w0, buf0, rfl, h0⟩ := exists_dword_of_length (buf := buf) (by omega)
  obtain ⟨w1, buf1, rfl, h1⟩ := exists_dword_of_length (buf := buf0) (by omega)
  obtain ⟨w2, rest, rfl, -⟩ := exists_dword_of_length (buf := buf1) (by omega)
  exact ⟨w0, w1, w2, rest, by simp only [packet, List.append_assoc]⟩

/-- Settles O16: a dword is taken off the buffer three times. -/
theorem everyLongBufferIsThreeDwordsAndARest : Obligations.EveryLongBufferIsThreeDwordsAndARest :=
  ⟨fun _ => exists_packet_of_length,
    fun w0 w1 w2 rest => ⟨dw_packet_zero w0 w1 w2 rest, dw_packet_one w0 w1 w2 rest, dw_packet_two w0 w1 w2 rest⟩⟩

/-! ## The textual form read back (R78) -/

theorem digitValue_hexDigit {d : Nat} (h : d < 16) : digitValue (hexDigits.getD d '0') = some d := by
  revert d
  decide

theorem hexDigit_mem {d : Nat} (h : d < 16) : hexDigits.getD d '0' ∈ hexDigits := by
  revert d
  decide

theorem space_not_mem_hexDigits : ' ' ∉ hexDigits := by decide

theorem readDigits_append (base n : Nat) (t u : Text) :
    readDigits base n (t ++ u) = (readDigits base n t).bind fun m => readDigits base m u := by
  induction t generalizing n with
  | nil => rfl
  | cons ch t ih =>
    simp only [List.cons_append, readDigits]
    cases digitValue ch with
    | none => rfl
    | some d =>
      by_cases hd : d < base
      · simp only [hd, if_true, ih]
      · simp only [hd, if_false, Option.bind_none]

/-- Hexadecimal digits, read after none, give the number back. -/
theorem readDigits_hexText {k n : Nat} (h : n < 16 ^ k) : readDigits 16 0 (hexText k n) = some n := by
  induction k generalizing n with
  | zero =>
    obtain rfl : n = 0 := by simpa using h
    rfl
  | succ k ih =>
    have hd : n % 16 < 16 := Nat.mod_lt n (by decide)
    have hq : n / 16 < 16 ^ k := Nat.div_lt_of_lt_mul (by rwa [Nat.pow_succ, Nat.mul_comm] at h)
    rw [hexText, readDigits_append, ih hq, Option.bind_some]
    simp only [readDigits, digitValue_hexDigit hd, hd, if_true, Nat.div_add_mod]

@[simp] theorem hexText_length (k n : Nat) : (hexText k n).length = k := by
  induction k generalizing n with
  | zero => rfl
  | succ k ih => simp [hexText, ih]

theorem mem_hexDigits_of_mem_hexText {k n : Nat} {ch : Char} (h : ch ∈ hexText k n) : ch ∈ hexDigits := by
  induction k generalizing n with
  | zero => cases h
  | succ k ih =>
    obtain h | h := List.mem_append.mp h
    · exact ih h
    · rw [List.mem_singleton.mp h]
      exact hexDigit_mem (Nat.mod_lt n (by decide))

/-- R78: `0x` and at least one digit is a hexadecimal number. -/
theorem readNumber_hex {t : Text} (h : t ≠ []) : readNumber ('0' :: 'x' :: t) = readDigits 16 0 t := by
  cases t with
  | nil => exact absurd rfl h
  | cons ch t => rfl

/-- A word of any width is read back. -/
theorem readBits_bitsText {w : Nat} (hw : 0 < w) (v : BitVec w) : readBits w (bitsText v) = some v := by
  have hfits : v.toNat < 16 ^ ((w + 3) / 4) := by
    calc v.toNat < 2 ^ w := v.isLt
      _ ≤ 2 ^ (4 * ((w + 3) / 4)) := Nat.pow_le_pow_right (by decide) (by omega)
      _ = 16 ^ ((w + 3) / 4) := by rw [Nat.pow_mul]
  have hdigits : hexText ((w + 3) / 4) v.toNat ≠ [] := by
    rw [← List.length_pos_iff, hexText_length]
    omega
  simp only [readBits, bitsText, readNumber_hex hdigits, readDigits_hexText hfits, v.isLt, if_true,
    BitVec.ofNat_toNat, BitVec.setWidth_eq]

/-- One byte as `bytesText` writes it. -/
def byteText (b : Byte) : Text := hexText 2 b.toNat

theorem bytesText_eq (s : Bytes) : bytesText s = ['['] ++ [' '].intercalate (s.map byteText) ++ [']'] := rfl

theorem readByte_byteText (b : Byte) : readByte (byteText b) = some b := by
  simp only [readByte, byteText, hexText_length, if_true, readDigits_hexText (k := 2) b.isLt, Option.map_some,
    BitVec.ofNat_toNat, BitVec.setWidth_eq]

theorem byteText_ne_nil (b : Byte) : byteText b ≠ [] := List.cons_ne_nil _ _

theorem space_not_mem_byteText (b : Byte) : ' ' ∉ byteText b :=
  fun h => space_not_mem_hexDigits (mem_hexDigits_of_mem_hexText h)

/-- The pieces of a text are those of the library's `splitOn`. -/
theorem pieces_eq_splitOn (sep : Char) (t : Text) : pieces sep t = t.splitOn sep := by
  induction t with
  | nil => rw [pieces, List.splitOn_nil]
  | cons ch t ih =>
    rw [pieces, ih, List.splitOn_cons_eq_if_modifyHead]
    by_cases hch : ch = sep
    · simp only [hch, if_true, beq_self_eq_true]
    · simp only [hch, if_false, beq_iff_eq]
      cases hp : t.splitOn sep with
      | nil => exact absurd hp (List.splitOn_ne_nil sep t)
      | cons p ps => rfl

theorem trimmed_eq_self {t : Text} (hfirst : t.head? ≠ some ' ') (hlast : t.getLast? ≠ some ' ') : trimmed t = t := by
  have hdrop {u : Text} (hu : u.head? ≠ some ' ') : u.dropWhile (· = ' ') = u := by
    cases u with
    | nil => rfl
    | cons ch u => exact List.dropWhile_cons_of_neg (by simpa using hu)
  rw [trimmed, hdrop hfirst, hdrop (by rwa [List.head?_reverse]), List.reverse_reverse]

section Joined

variable {ts : List Text} (hne : ∀ t ∈ ts, t ≠ []) (hsp : ∀ t ∈ ts, ' ' ∉ t)
include hne

theorem intercalate_eq_nil_iff : [' '].intercalate ts = [] ↔ ts = [] := by
  rcases ts with - | ⟨t, - | ⟨u, ts⟩⟩
  · simp
  · simpa using hne
  · simp [List.intercalate_cons_cons]

include hsp

theorem head?_intercalate_ne_space : ([' '].intercalate ts).head? ≠ some ' ' := by
  rcases ts with - | ⟨t, ts⟩
  · simp
  · have ht : ([' '].intercalate (t :: ts)).head? = t.head? := by
      cases ts with
      | nil => rw [List.intercalate_singleton]
      | cons u ts =>
        rw [List.intercalate_cons_cons, List.append_assoc, List.head?_append_of_ne_nil _ (hne t (by simp))]
    rw [ht]
    exact fun h => hsp t (by simp) (List.mem_of_mem_head? h)

theorem getLast?_intercalate_ne_space : ([' '].intercalate ts).getLast? ≠ some ' ' := by
  induction ts with
  | nil => simp
  | cons t ts ih =>
    rcases ts with - | ⟨u, ts⟩
    · rw [List.intercalate_singleton]
      exact fun h => hsp t (by simp) (List.mem_of_mem_getLast? h)
    · have hne' := fun v hv => hne v (List.mem_cons_of_mem t hv)
      have hrest : [' '].intercalate (u :: ts) ≠ [] := by simp [intercalate_eq_nil_iff hne']
      rw [List.intercalate_cons_cons, List.getLast?_append_of_ne_nil _ hrest]
      exact ih hne' fun v hv => hsp v (List.mem_cons_of_mem t hv)

end Joined

theorem allSome_map_some {α : Type} (xs : List α) : allSome (xs.map some) = some xs := by
  induction xs with
  | nil => rfl
  | cons x xs ih => rw [List.map_cons, allSome, ih, Option.map_some]

theorem readBytes_brackets (t : Text) :
    readBytes (['['] ++ t ++ [']']) =
      if trimmed t = [] then some [] else allSome ((pieces ' ' (trimmed t)).map readByte) := by
  have hlast : (['['] ++ t ++ [']']).getLast? = some ']' := List.getLast?_concat
  have hinner : (['['] ++ t ++ [']']).tail.dropLast = t := by simp
  simp only [readBytes, hlast, hinner]
  rfl

theorem readBytes_bytesText (s : Bytes) : readBytes (bytesText s) = some s := by
  have hne : ∀ t ∈ s.map byteText, t ≠ [] := by simp [byteText_ne_nil]
  have hsp : ∀ t ∈ s.map byteText, ' ' ∉ t := by simp [space_not_mem_byteText]
  have htrim := trimmed_eq_self (head?_intercalate_ne_space hne hsp) (getLast?_intercalate_ne_space hne hsp)
  rw [bytesText_eq, readBytes_brackets, htrim]
  by_cases hs : s = []
  · subst hs
    rfl
  · have hs' : s.map byteText ≠ [] := by simpa using hs
    have hread : readByte ∘ byteText = some := funext readByte_byteText
    rw [if_neg ((intercalate_eq_nil_iff hne).not.mpr hs'), pieces_eq_splitOn, List.splitOn_intercalate _ hsp hs',
      List.map_map, hread, allSome_map_some]

/-- Settles O13: digits written are digits read, and no byte's text has the space that separates them. -/
theorem textIsReadBack : Obligations.TextIsReadBack :=
  ⟨readBytes_bytesText, readBits_bitsText (by decide)⟩

/-! ## Reserved bits the decoders ignore (R69) -/

theorem extractField_congr {w w' : Word} {hi lo : Nat} (h : bits w hi lo = bits w' hi lo) :
    extractField w hi lo = extractField w' hi lo := by
  rw [extractField_eq_bits, extractField_eq_bits, h]

theorem tagPresent_congr {w w' : Word} (h : bits w 0 0 = bits w' 0 0) : tagPresent w = tagPresent w' := by
  rw [tagPresent, tagPresent, extractField_congr h]

theorem tagOf_congr {w w' : Word} (h : bits w 7 0 = bits w' 7 0) : tagOf w = tagOf w' := by
  rw [tagOf, tagOf, extractField_congr h]

theorem statusOf_congr {w w' : Word} (h : bits w 2 0 = bits w' 2 0) : statusOf w = statusOf w' := by
  rw [statusOf, statusOf, extractField_congr h]

section ReservedBits

variable (c : Config.Codes) (w0 : Word) {w1 w1' w2 w2' : Word} (rest : Bytes)

/-- DEC_WR sees of DW2 whether a tag byte is announced, and nothing else. -/
theorem decodeWrite_packet_congr (h2 : tagPresent w2 = tagPresent w2') :
    decodeWrite c (packet w0 w1 w2 rest) = decodeWrite c (packet w0 w1 w2' rest) := by
  simp only [decodeWrite, bufferHasCapacity, headerSize, packet_length, dw_packet_zero, dw_packet_one, dw_packet_two,
    byteAt_packet, slice_packet, h2]

/-- DEC_RD sees of DW2 the Tag alone. -/
theorem decodeRead_packet_congr (h2 : tagOf w2 = tagOf w2') :
    decodeRead c (packet w0 w1 w2 rest) = decodeRead c (packet w0 w1 w2' rest) := by
  simp only [decodeRead, bufferHasCapacity, packet_length, dw_packet_zero, dw_packet_one, dw_packet_two, h2]

/-- DEC_CPL sees of DW1 the Status alone, and of DW2 the Tag alone. -/
theorem decodeCompletion_packet_congr (h1 : statusOf w1 = statusOf w1') (h2 : tagOf w2 = tagOf w2') :
    decodeCompletion c (packet w0 w1 w2 rest) = decodeCompletion c (packet w0 w1' w2' rest) := by
  simp only [decodeCompletion, bufferHasCapacity, headerSize, packet_length, dw_packet_zero, dw_packet_one,
    dw_packet_two, slice_packet, h1, h2]

end ReservedBits

/-! ## The first check that fails (R225)

`decodeWrite_ok_iff`, `decodeRead_ok_iff` and `decodeCompletion_ok_iff` say when none does. -/

section FirstError

variable {c : Config.Codes} {buf : Bytes}

theorem decodeWrite_of_short (hlen : ¬ 12 ≤ buf.length) : decodeWrite c buf = .error .truncatedBuffer := by
  simp [decodeWrite, bufferHasCapacity, headerSize, hlen]

theorem decodeRead_of_short (hlen : ¬ 12 ≤ buf.length) : decodeRead c buf = .error .truncatedBuffer := by
  simp [decodeRead, bufferHasCapacity, readSize, hlen]

theorem decodeCompletion_of_short (hlen : ¬ 12 ≤ buf.length) : decodeCompletion c buf = .error .truncatedBuffer := by
  simp [decodeCompletion, bufferHasCapacity, headerSize, hlen]

theorem decodeAny_of_short (hlen : ¬ 12 ≤ buf.length) : decodeAny c buf = .error .truncatedBuffer := by
  simp [decodeAny, bufferHasCapacity, headerSize, hlen]

variable (hlen : 12 ≤ buf.length)
include hlen

theorem decodeWrite_of_malformed (hf : ¬ formatMatches (dw buf 0) fmtWr c.typeWr = true) :
    decodeWrite c buf = .error .malformedHeader := by
  simp only [decodeWrite, bufferHasCapacity, headerSize, hlen, hf]
  rfl

theorem decodeRead_of_malformed (hf : ¬ formatMatches (dw buf 0) fmtRd c.typeRd = true) :
    decodeRead c buf = .error .malformedHeader := by
  simp only [decodeRead, bufferHasCapacity, readSize, hlen, hf]
  rfl

theorem decodeCompletion_of_malformed (hf : ¬ formatMatches (dw buf 0) c.fmtCpl c.typeCpl = true) :
    decodeCompletion c buf = .error .malformedHeader := by
  simp only [decodeCompletion, bufferHasCapacity, headerSize, hlen, hf]
  rfl

theorem decodeWrite_of_invalidLength (hf : formatMatches (dw buf 0) fmtWr c.typeWr = true)
    (hl : ¬ 1 ≤ (lengthOf (dw buf 0)).toNat) : decodeWrite c buf = .error .invalidLength := by
  simp only [decodeWrite, bufferHasCapacity, headerSize, lengthInRange, hlen, hf, hl]
  rfl

theorem decodeRead_of_invalidLength (hf : formatMatches (dw buf 0) fmtRd c.typeRd = true)
    (hl : ¬ (lengthOf (dw buf 0)).toNat = 1) : decodeRead c buf = .error .invalidLength := by
  have hrange : lengthInRange (lengthOf (dw buf 0)).toNat 1 1 = false := by
    rw [← Bool.not_eq_true, lengthInRange_iff]
    omega
  simp only [decodeRead, bufferHasCapacity, readSize, hlen, hf, hrange]
  rfl

/-- R161: the Length of a completion is never out of range, so its Status is checked next. -/
theorem decodeCompletion_of_invalidStatus (hf : formatMatches (dw buf 0) c.fmtCpl c.typeCpl = true)
    (hs : ¬ statusRecognized c (statusOf (dw buf 1)) = true) : decodeCompletion c buf = .error .invalidStatus := by
  simp only [decodeCompletion, bufferHasCapacity, headerSize, lengthInRange, lengthOf_le, Nat.zero_le, hlen, hf, hs]
  rfl

theorem decodeWrite_of_truncated (hf : formatMatches (dw buf 0) fmtWr c.typeWr = true)
    (hl : 1 ≤ (lengthOf (dw buf 0)).toNat)
    (hcap : ¬ 12 + 4 * (lengthOf (dw buf 0)).toNat + tagPresent (dw buf 2) ≤ buf.length) :
    decodeWrite c buf = .error .truncatedBuffer := by
  simp only [decodeWrite, bufferHasCapacity, headerSize, lengthInRange, lengthOf_le, hlen, hf, hl, hcap]
  rfl

theorem decodeCompletion_of_truncated (hf : formatMatches (dw buf 0) c.fmtCpl c.typeCpl = true)
    (hs : statusRecognized c (statusOf (dw buf 1)) = true)
    (hcap : ¬ 12 + 4 * (lengthOf (dw buf 0)).toNat ≤ buf.length) :
    decodeCompletion c buf = .error .truncatedBuffer := by
  simp only [decodeCompletion, bufferHasCapacity, headerSize, lengthInRange, lengthOf_le, Nat.zero_le, hlen, hf, hs,
    hcap]
  rfl

end FirstError

/-! ## The decoder DEC_ANY selects (R200) -/

theorem fmtOf_eq_bits (w : Word) : fmtOf w = BitVec.ofNat 2 (bits w 31 30) := by
  rw [fmtOf, extractField_eq_bits, BitVec.setWidth_ofNat_of_le (by decide)]

theorem codesValid_codes : codesValid codes = true := rfl

section Selection

variable {c : Config.Codes} {buf : Bytes} (hlen : 12 ≤ buf.length)
include hlen

theorem decodeAny_of_fmtRd (hf : fmtOf (dw buf 0) = fmtRd) :
    decodeAny c buf = (decodeRead c buf).map fun r => (.readRequest, .read r) := by
  simp [decodeAny, headerSize, hlen, hf]

theorem decodeAny_of_fmtWr (hf : fmtOf (dw buf 0) = fmtWr) :
    decodeAny c buf = (decodeWrite c buf).map fun r => (.writeRequest, .write r) := by
  have hne : fmtWr ≠ fmtRd := by decide
  simp [decodeAny, headerSize, hlen, hf, hne]

theorem decodeAny_of_fmtCpl (hc : codesValid c = true) (hf : fmtOf (dw buf 0) = c.fmtCpl) :
    decodeAny c buf = (decodeCompletion c buf).map fun r => (.completion, .completion r) := by
  obtain ⟨hne_rd, hne_wr⟩ := fmtCpl_ne_of_codesValid hc
  simp [decodeAny, headerSize, hlen, hf, hne_rd, hne_wr]

theorem decodeAny_of_unknown (hr : fmtOf (dw buf 0) ≠ fmtRd) (hw : fmtOf (dw buf 0) ≠ fmtWr)
    (hc : fmtOf (dw buf 0) ≠ c.fmtCpl) : decodeAny c buf = .error .malformedHeader := by
  simp [decodeAny, headerSize, hlen, hr, hw, hc]

end Selection

section ReservedBitsAny

variable {w0 w1 w1' w2 w2' : Word} (rest : Bytes)

theorem decodeAny_packet_congr_of_write (hf : bits w0 31 30 = 1) (h2 : bits w2 0 0 = bits w2' 0 0) :
    decodeAny codes (packet w0 w1 w2 rest) = decodeAny codes (packet w0 w1 w2' rest) := by
  have hfmt (v2 : Word) : fmtOf (dw (packet w0 w1 v2 rest) 0) = fmtWr := by
    rw [dw_packet_zero, fmtOf_eq_bits, hf]
    rfl
  rw [decodeAny_of_fmtWr (by simp) (hfmt w2), decodeAny_of_fmtWr (by simp) (hfmt w2'),
    decodeWrite_packet_congr codes w0 rest (tagPresent_congr h2)]

theorem decodeAny_packet_congr_of_read (hf : bits w0 31 30 = 0) (h2 : bits w2 7 0 = bits w2' 7 0) :
    decodeAny codes (packet w0 w1 w2 rest) = decodeAny codes (packet w0 w1 w2' rest) := by
  have hfmt (v2 : Word) : fmtOf (dw (packet w0 w1 v2 rest) 0) = fmtRd := by
    rw [dw_packet_zero, fmtOf_eq_bits, hf]
    rfl
  rw [decodeAny_of_fmtRd (by simp) (hfmt w2), decodeAny_of_fmtRd (by simp) (hfmt w2'),
    decodeRead_packet_congr codes w0 rest (tagOf_congr h2)]

theorem decodeAny_packet_congr_of_completion (hf : bits w0 31 30 = 2) (h1 : bits w1 2 0 = bits w1' 2 0)
    (h2 : bits w2 7 0 = bits w2' 7 0) :
    decodeAny codes (packet w0 w1 w2 rest) = decodeAny codes (packet w0 w1' w2' rest) := by
  have hfmt (v1 v2 : Word) : fmtOf (dw (packet w0 v1 v2 rest) 0) = codes.fmtCpl := by
    rw [dw_packet_zero, fmtOf_eq_bits, hf]
    rfl
  rw [decodeAny_of_fmtCpl (by simp) codesValid_codes (hfmt w1 w2),
    decodeAny_of_fmtCpl (by simp) codesValid_codes (hfmt w1' w2'),
    decodeCompletion_packet_congr codes w0 rest (statusOf_congr h1) (tagOf_congr h2)]

end ReservedBitsAny

/-! ## Bytes beyond the packet (R69) -/

section Trailing

variable {c : Config.Codes} {buf : Bytes} (extra : Bytes)

theorem le_length_append {n : Nat} (h : n ≤ buf.length) : n ≤ (buf ++ extra).length := by
  rw [List.length_append]
  omega

/-- The three dwords of a header do not depend on what follows. -/
theorem dw_header_append (hlen : 12 ≤ buf.length) :
    dw (buf ++ extra) 0 = dw buf 0 ∧ dw (buf ++ extra) 1 = dw buf 1 ∧ dw (buf ++ extra) 2 = dw buf 2 :=
  ⟨dw_append _ _ _ (by omega), dw_append _ _ _ (by omega), dw_append _ _ _ (by omega)⟩

theorem decodeWrite_append (h : decodeWrite c buf ≠ .error .truncatedBuffer) :
    decodeWrite c (buf ++ extra) = decodeWrite c buf := by
  have hlen : 12 ≤ buf.length := by_contra fun hlen => h (decodeWrite_of_short hlen)
  have hlen' := le_length_append extra hlen
  obtain ⟨h0, h1, h2⟩ := dw_header_append extra hlen
  by_cases hf : formatMatches (dw buf 0) fmtWr c.typeWr = true
  case neg => rw [decodeWrite_of_malformed hlen hf, decodeWrite_of_malformed hlen' (h0 ▸ hf)]
  by_cases hl : 1 ≤ (lengthOf (dw buf 0)).toNat
  case neg => rw [decodeWrite_of_invalidLength hlen hf hl, decodeWrite_of_invalidLength hlen' (h0 ▸ hf) (h0 ▸ hl)]
  have hcap : 12 + 4 * (lengthOf (dw buf 0)).toNat + tagPresent (dw buf 2) ≤ buf.length :=
    by_contra fun hcap => h (decodeWrite_of_truncated hlen hf hl hcap)
  obtain ⟨hfmt, htype⟩ := (formatMatches_iff ..).mp hf
  have htag (htp : tagPresent (dw buf 2) = 1) :
      byteAt (buf ++ extra) (12 + 4 * (lengthOf (dw buf 0)).toNat) =
        byteAt buf (12 + 4 * (lengthOf (dw buf 0)).toNat) := byteAt_append _ _ _ (by omega)
  rw [(decodeWrite_ok_iff c buf _).mpr ⟨hlen, hfmt, htype, hl, hcap, rfl⟩, decodeWrite_ok_iff, h0, h1, h2,
    slice_append _ _ _ _ (by omega)]
  refine ⟨hlen', hfmt, htype, hl, le_length_append extra hcap, ?_⟩
  simp +contextual only [htag]

theorem decodeRead_append (h : decodeRead c buf ≠ .error .truncatedBuffer) :
    decodeRead c (buf ++ extra) = decodeRead c buf := by
  have hlen : 12 ≤ buf.length := by_contra fun hlen => h (decodeRead_of_short hlen)
  have hlen' := le_length_append extra hlen
  obtain ⟨h0, h1, h2⟩ := dw_header_append extra hlen
  by_cases hf : formatMatches (dw buf 0) fmtRd c.typeRd = true
  case neg => rw [decodeRead_of_malformed hlen hf, decodeRead_of_malformed hlen' (h0 ▸ hf)]
  by_cases hl : (lengthOf (dw buf 0)).toNat = 1
  case neg => rw [decodeRead_of_invalidLength hlen hf hl, decodeRead_of_invalidLength hlen' (h0 ▸ hf) (h0 ▸ hl)]
  obtain ⟨hfmt, htype⟩ := (formatMatches_iff ..).mp hf
  rw [(decodeRead_ok_iff c buf _).mpr ⟨hlen, hfmt, htype, hl, rfl⟩, decodeRead_ok_iff, h0, h1, h2]
  exact ⟨hlen', hfmt, htype, hl, rfl⟩

theorem decodeCompletion_append (h : decodeCompletion c buf ≠ .error .truncatedBuffer) :
    decodeCompletion c (buf ++ extra) = decodeCompletion c buf := by
  have hlen : 12 ≤ buf.length := by_contra fun hlen => h (decodeCompletion_of_short hlen)
  have hlen' := le_length_append extra hlen
  obtain ⟨h0, h1, h2⟩ := dw_header_append extra hlen
  by_cases hf : formatMatches (dw buf 0) c.fmtCpl c.typeCpl = true
  case neg => rw [decodeCompletion_of_malformed hlen hf, decodeCompletion_of_malformed hlen' (h0 ▸ hf)]
  by_cases hs : statusRecognized c (statusOf (dw buf 1)) = true
  case neg =>
    rw [decodeCompletion_of_invalidStatus hlen hf hs,
      decodeCompletion_of_invalidStatus hlen' (h0 ▸ hf) (h1 ▸ hs)]
  have hcap : 12 + 4 * (lengthOf (dw buf 0)).toNat ≤ buf.length :=
    by_contra fun hcap => h (decodeCompletion_of_truncated hlen hf hs hcap)
  obtain ⟨hfmt, htype⟩ := (formatMatches_iff ..).mp hf
  rw [(decodeCompletion_ok_iff c buf _).mpr ⟨hlen, hfmt, htype, hs, hcap, rfl⟩, decodeCompletion_ok_iff, h0, h1, h2,
    slice_append _ _ _ _ hcap]
  exact ⟨hlen', hfmt, htype, hs, le_length_append extra hcap, rfl⟩

theorem ne_error_of_map {ε α β : Type} {d : Except ε α} {f : α → β} {e : ε} (h : d.map f ≠ .error e) :
    d ≠ .error e := by
  rintro rfl
  exact h rfl

theorem decodeAny_append (hc : codesValid c = true) (h : decodeAny c buf ≠ .error .truncatedBuffer) :
    decodeAny c (buf ++ extra) = decodeAny c buf := by
  have hlen : 12 ≤ buf.length := by_contra fun hlen => h (decodeAny_of_short hlen)
  have hlen' := le_length_append extra hlen
  obtain ⟨h0, -, -⟩ := dw_header_append extra hlen
  by_cases hrd : fmtOf (dw buf 0) = fmtRd
  · rw [decodeAny_of_fmtRd hlen hrd] at h ⊢
    rw [decodeAny_of_fmtRd hlen' (h0 ▸ hrd), decodeRead_append extra (ne_error_of_map h)]
  by_cases hwr : fmtOf (dw buf 0) = fmtWr
  · rw [decodeAny_of_fmtWr hlen hwr] at h ⊢
    rw [decodeAny_of_fmtWr hlen' (h0 ▸ hwr), decodeWrite_append extra (ne_error_of_map h)]
  by_cases hcpl : fmtOf (dw buf 0) = c.fmtCpl
  · rw [decodeAny_of_fmtCpl hlen hc hcpl] at h ⊢
    rw [decodeAny_of_fmtCpl hlen' hc (h0 ▸ hcpl), decodeCompletion_append extra (ne_error_of_map h)]
  · rw [decodeAny_of_unknown hlen hrd hwr hcpl,
      decodeAny_of_unknown hlen' (h0 ▸ hrd) (h0 ▸ hwr) (h0 ▸ hcpl)]

end Trailing

/-- A decoder whose response is not `TruncatedBuffer` did not come to that error. -/
theorem ne_truncated_of_respond {α : Type} {d : Except ErrorKind α} {f : α → Result} {s t : State}
    (h : respond (d.map f) s = .next t) (ht : t.response ≠ some (.err .truncatedBuffer)) :
    d ≠ .error .truncatedBuffer := by
  rintro rfl
  cases h
  exact ht rfl

/-! ## What a decoder's next state depends on -/

section Responses

variable {buf buf' : Bytes} (s : State)

theorem exec_decWr_congr (h : decodeWrite codes buf = decodeWrite codes buf') :
    exec (.decWr buf) s = exec (.decWr buf') s := by
  simp only [exec, execDecWr, h]

theorem exec_decRd_congr (h : decodeRead codes buf = decodeRead codes buf') :
    exec (.decRd buf) s = exec (.decRd buf') s := by
  simp only [exec, execDecRd, h]

theorem exec_decCpl_congr (h : decodeCompletion codes buf = decodeCompletion codes buf') :
    exec (.decCpl buf) s = exec (.decCpl buf') s := by
  simp only [exec, execDecCpl, h]

theorem exec_decAny_congr (h : decodeAny codes buf = decodeAny codes buf') :
    exec (.decAny buf) s = exec (.decAny buf') s := by
  simp only [exec, execDecAny, h]

end Responses

/-! ## The reserved bits the encoders write (R69) -/

/-- A narrower value, widened, leaves the bits above its own width 0. -/
theorem bits_setWidth_eq_zero {n : Nat} (x : BitVec n) {hi lo : Nat} (h : n ≤ lo) :
    bits (x.setWidth 32) hi lo = 0 := by
  have hlt : (x.setWidth 32).toNat < 2 ^ lo := by
    calc (x.setWidth 32).toNat ≤ x.toNat := by
          rw [BitVec.toNat_setWidth]
          exact Nat.mod_le _ _
      _ < 2 ^ n := x.isLt
      _ ≤ 2 ^ lo := Nat.pow_le_pow_right (by decide) h
  rw [bits, Nat.div_eq_of_lt hlt, Nat.zero_mod]

theorem dw_two_of_encodeWrite {c : Config.Codes} {address : Word} {data : Bytes} {be tag : Byte} {out : Bytes}
    {n : Nat} (h : encodeWrite c address data be tag = .ok (out, n)) : dw out 2 = 1 := by
  obtain ⟨-, -, -, hp⟩ := (encodeWrite_ok_iff ..).mp h
  obtain ⟨rfl, -⟩ := Prod.mk.inj hp
  rw [List.append_assoc, le32_append_eq_packet, dw_packet_two]

theorem encodeRead_eq_packet (c : Config.Codes) (address : Word) (tag : Byte) :
    (encodeRead c address tag).1 =
      packet (headerWord fmtRd c.typeRd encTc encBeRd 1) address (tag.setWidth 32) [] := by
  rw [← le32_append_eq_packet, List.append_nil, encodeRead]

theorem dw_of_encodeCompletion {c : Config.Codes} {data : Bytes} {status : BitVec 3} {tag : Byte} {out : Bytes}
    {n : Nat} (h : encodeCompletion c data status tag = .ok (out, n)) :
    dw out 1 = status.setWidth 32 ∧ dw out 2 = tag.setWidth 32 := by
  obtain ⟨-, -, -, hp⟩ := (encodeCompletion_ok_iff ..).mp h
  obtain ⟨rfl, -⟩ := Prod.mk.inj hp
  rw [le32_append_eq_packet]
  exact ⟨dw_packet_one .., dw_packet_two ..⟩

theorem encodeRead_of_response {address : Word} {tag : Byte} {s t : State} {out : Bytes} {n : Nat}
    (h : exec (.encRd address tag) s = .next t) (hr : t.response = some (.ok (.packet out n))) :
    (encodeRead codes address tag).1 = out := by
  cases outcomeOf_of_response h hr
  rfl

/-- Settles O28: each decoder sees only the fields it reads, what follows a packet is read only where a buffer is
truncated, and the dwords the encoders write come from values narrower than their reserved bits. -/
theorem reservedBitsAndTrailingBytesAreIgnored : Obligations.ReservedBitsAndTrailingBytesAreIgnored := by
  refine ⟨?reserved, ?trailing, ?encoders⟩
  case reserved =>
    intro w0 w1 w1' w2 w2' rest s buf
    refine ⟨fun h2 => ⟨?_, fun hf => ?_⟩, fun h2 => ⟨?_, fun hf => ?_⟩, fun h1 h2 => ⟨?_, fun hf => ?_⟩⟩
    · exact exec_decWr_congr s (decodeWrite_packet_congr codes w0 rest (tagPresent_congr h2))
    · exact exec_decAny_congr s (decodeAny_packet_congr_of_write rest hf h2)
    · exact exec_decRd_congr s (decodeRead_packet_congr codes w0 rest (tagOf_congr h2))
    · exact exec_decAny_congr s (decodeAny_packet_congr_of_read rest hf h2)
    · exact exec_decCpl_congr s (decodeCompletion_packet_congr codes w0 rest (statusOf_congr h1) (tagOf_congr h2))
    · exact exec_decAny_congr s (decodeAny_packet_congr_of_completion rest hf h1 h2)
  case trailing =>
    intro buf extra s t ht
    refine ⟨fun h => ?_, fun h => ?_, fun h => ?_, fun h => ?_⟩ <;> rw [← h]
    · exact exec_decWr_congr s (decodeWrite_append extra (ne_truncated_of_respond h ht))
    · exact exec_decRd_congr s (decodeRead_append extra (ne_truncated_of_respond h ht))
    · exact exec_decCpl_congr s (decodeCompletion_append extra (ne_truncated_of_respond h ht))
    · exact exec_decAny_congr s (decodeAny_append extra codesValid_codes (ne_truncated_of_respond h ht))
  case encoders =>
    intro s t out n hr
    refine ⟨fun a d be g h => ?_, fun a g h => ?_, fun d st g h => ?_⟩
    · rw [dw_two_of_encodeWrite (encodeWrite_of_response h hr)]
      rfl
    · rw [← encodeRead_of_response h hr, encodeRead_eq_packet, dw_packet_two]
      exact bits_setWidth_eq_zero g (by decide)
    · obtain ⟨h1, h2⟩ := dw_of_encodeCompletion (encodeCompletion_of_response h hr)
      rw [h1, h2]
      exact ⟨bits_setWidth_eq_zero st (by decide), bits_setWidth_eq_zero g (by decide)⟩

end Sys2Proof.Machine

/-! SUPPORT. EXTRACT and INSERT by their bounds, in range and out of it, and the laws between them. -/

namespace Sys2Proof.Machine

open Sys2Proof.Expect

/-! ## Bounds out of range (R102) -/

theorem not_fieldInRange {hi lo : Nat} (h : hi < lo ∨ 31 < hi) : ¬ fieldInRange hi lo = true := by
  rw [fieldInRange_iff]
  omega

theorem exec_extract_of_not_inRange {hi lo : Byte} (h : ¬ fieldInRange hi.toNat lo.toNat = true) (w : Word)
    (s : State) : exec (.extract w hi lo) s = .fault .fieldRange :=
  if_neg h

theorem exec_insert_of_not_inRange {hi lo : Byte} (h : ¬ fieldInRange hi.toNat lo.toNat = true) (w v : Word)
    (s : State) : exec (.insert w v hi lo) s = .fault .fieldRange :=
  if_neg h

/-- Settles O17: EXTRACT either answers R11's number or faults, as its bounds are in range or not. -/
theorem extractAnswersTheField : Obligations.ExtractAnswersTheField :=
  fun w _ _ s =>
    ⟨fun hle h31 => exec_extract_of_inRange ((fieldInRange_iff ..).mpr ⟨hle, h31⟩) w s,
      fun hout => exec_extract_of_not_inRange (not_fieldInRange hout) w s, rfl, rfl⟩

/-- Settles O18: INSERT either answers the word replaced bit by bit or faults, as its bounds are in range or not. -/
theorem insertReplacesTheField : Obligations.InsertReplacesTheField := by
  intro w v hi lo s
  refine ⟨fun hle h31 => ?_, fun hout => exec_insert_of_not_inRange (not_fieldInRange hout) w v s, rfl, rfl⟩
  have h := (fieldInRange_iff ..).mpr ⟨hle, h31⟩
  exact ⟨_, exec_insert_of_inRange h w v s, fun p _ => insertField_getLsbD w v _ _ p h⟩

/-! ## What EXTRACT reads (R103, R106) -/

/-- R106: the number of a field depends on the bits of the field alone. -/
theorem bits_eq_of_agree {w w' : Word} {hi lo : Nat} (hle : lo ≤ hi)
    (h : ∀ p, lo ≤ p → p ≤ hi → w.getLsbD p = w'.getLsbD p) : bits w hi lo = bits w' hi lo := by
  refine Nat.eq_of_testBit_eq fun p => ?_
  rw [bits_testBit, bits_testBit]
  by_cases hp : p < hi - lo + 1
  · rw [h (lo + p) (by omega) (by omega)]
  · simp only [hp, decide_false, Bool.false_and]

/-- Settles O22: in range the answer is the field's number, and out of range no word is read. -/
theorem extractReadsOnlyItsField : Obligations.ExtractReadsOnlyItsField := by
  intro w w' hi lo s hagree
  by_cases h : fieldInRange hi.toNat lo.toNat = true
  · obtain ⟨hle, -⟩ := (fieldInRange_iff ..).mp h
    rw [exec_extract_of_inRange h, exec_extract_of_inRange h, bits_eq_of_agree hle hagree]
  · rw [exec_extract_of_not_inRange h, exec_extract_of_not_inRange h]

/-- Settles O19: EXTRACT `p:p` reads bit `p` alone, which INSERT keeps. -/
theorem insertChangesOnlyItsField : Obligations.InsertChangesOnlyItsField := by
  intro w v hi lo p s hle h31 hp hout
  have h := (fieldInRange_iff ..).mpr ⟨hle, h31⟩
  have hpp := (fieldInRange_iff ..).mpr ⟨le_refl p.toNat, hp⟩
  have hsame : exec (.extract (insertField w v hi.toNat lo.toNat) p p) s = exec (.extract w p p) s := by
    refine extractReadsOnlyItsField _ _ p p s fun k hk hk' => ?_
    obtain rfl : k = p.toNat := le_antisymm hk' hk
    exact insertField_keeps w v _ _ _ h hout
  exact ⟨_, _, exec_insert_of_inRange h w v s, hsame.trans (exec_extract_of_inRange hpp w s),
    exec_extract_of_inRange hpp w s⟩

/-! ## EXTRACT after EXTRACT, and INSERT after EXTRACT (R104, R105) -/

/-- R104: a field's number, as a word, is its own field of that width. -/
theorem bits_ofNat_bits (w : Word) (hi lo : Nat) :
    bits (BitVec.ofNat 32 (bits w hi lo)) (hi - lo) 0 = bits w hi lo := by
  have hlt : bits w hi lo < 2 ^ 32 := (Nat.mod_le ..).trans_lt ((Nat.div_le_self ..).trans_lt w.isLt)
  rw [bits, BitVec.toNat_ofNat, Nat.mod_eq_of_lt hlt, Nat.pow_zero, Nat.div_one, Nat.sub_zero, bits, Nat.mod_mod]

/-- R105: the bits inserted are those that stood in the field. -/
theorem insertField_extractField (w : Word) {hi lo : Nat} (h : fieldInRange hi lo = true) :
    insertField w (extractField w hi lo) hi lo = w := by
  refine BitVec.eq_of_getLsbD_eq fun p _ => ?_
  rw [insertField_getLsbD _ _ _ _ p h, extractField_getLsbD]
  split
  case isTrue hin => rw [decide_eq_true (by omega), Bool.and_true, Nat.add_sub_cancel' hin.1]
  case isFalse => rfl

/-- Settles O20: the bounds `hi - lo` and 0 are in range, and the field there is the number extracted. -/
theorem extractionIsIdempotent : Obligations.ExtractionIsIdempotent := by
  intro w hi lo s hle h31
  have h := (fieldInRange_iff ..).mpr ⟨hle, h31⟩
  have hsub : (hi - lo).toNat = hi.toNat - lo.toNat := BitVec.toNat_sub_of_le hle
  have hzero : (0 : Byte).toNat = 0 := rfl
  have h0 : fieldInRange (hi - lo).toNat (0 : Byte).toNat = true :=
    (fieldInRange_iff ..).mpr ⟨Nat.zero_le _, by omega⟩
  refine ⟨_, exec_extract_of_inRange h w s, ?_⟩
  rw [exec_extract_of_inRange h0, hsub, hzero, bits_ofNat_bits]
  rfl

/-- Settles O21: the field inserted is read back, and the field read is put back. -/
theorem extractAndInsertUndoEachOther : Obligations.ExtractAndInsertUndoEachOther := by
  intro w v hi lo s hle h31
  have h := (fieldInRange_iff ..).mpr ⟨hle, h31⟩
  refine ⟨⟨_, exec_insert_of_inRange h w v s, ?_⟩, ⟨_, exec_extract_of_inRange h w s, ?_⟩⟩
  · rw [exec_extract_of_inRange h, bits_insertField w v h]
    rfl
  · rw [exec_insert_of_inRange h, ← extractField_eq_bits, insertField_extractField w h]
    rfl

end Sys2Proof.Machine

/-! SUPPORT. The statements on the write-request codec: a word and its fields, what DEC_WR answers a buffer that begins
with three dwords, the packet ENC_WR writes, and each operation after the other. -/

namespace Sys2Proof.Machine

open Sys2Proof.Expect

/-! ## A word and its fields (R11, R60) -/

theorem bits_lt (w : Word) (hi lo : Nat) : bits w hi lo < 2 ^ (hi - lo + 1) :=
  Nat.mod_lt _ (Nat.two_pow_pos _)

theorem len_lt (w : Word) : len w < 2 ^ 12 := bits_lt w 11 0

theorem typeOf_eq_bits (w : Word) : typeOf w = BitVec.ofNat 6 (bits w 29 24) := by
  rw [typeOf, extractField_eq_bits, BitVec.setWidth_ofNat_of_le (by decide)]

theorem tcOf_eq_bits (w : Word) : tcOf w = BitVec.ofNat 4 (bits w 23 20) := by
  rw [tcOf, extractField_eq_bits, BitVec.setWidth_ofNat_of_le (by decide)]

theorem beOf_eq_bits (w : Word) : beOf w = BitVec.ofNat 8 (bits w 19 12) := by
  rw [beOf, extractField_eq_bits, BitVec.setWidth_ofNat_of_le (by decide)]

theorem lengthOf_eq_len (w : Word) : lengthOf w = BitVec.ofNat 12 (len w) := by
  rw [lengthOf, extractField_eq_bits, BitVec.setWidth_ofNat_of_le (by decide), len]

/-- R70: the 12-bit field holds the whole Length. -/
@[simp] theorem toNat_lengthOf (w : Word) : (lengthOf w).toNat = len w := by
  rw [lengthOf_eq_len, BitVec.toNat_ofNat, Nat.mod_eq_of_lt (len_lt w)]

theorem tagPresent_eq_bits (w : Word) : tagPresent w = bits w 0 0 := by
  have hlt := bits_lt w 0 0
  rw [tagPresent, extractField_eq_bits, BitVec.toNat_ofNat]
  omega

/-- R60: a Header Word is the weighted sum of its five fields. -/
theorem toNat_eq_fields (w : Word) :
    w.toNat =
      bits w 31 30 * 2 ^ 30 + bits w 29 24 * 2 ^ 24 + bits w 23 20 * 2 ^ 20 + bits w 19 12 * 2 ^ 12 + len w := by
  have hlt := w.isLt
  simp only [len, bits]
  omega

/-- R60: the composed Header Word is its five fields side by side. -/
theorem headerWord_eq_append (fmt : BitVec 2) (type : BitVec 6) (tc : BitVec 4) (be : Byte) (n : Nat) :
    headerWord fmt type tc be n = fmt ++ type ++ tc ++ be ++ BitVec.ofNat 12 n := by
  refine BitVec.eq_of_getLsbD_eq fun p _ => ?_
  have h20 : p - 12 < 8 ↔ p < 20 := by omega
  have h24 : p - 20 < 4 ↔ p < 24 := by omega
  have h30 : p - 24 < 6 ↔ p < 30 := by omega
  rw [headerWord_getLsbD]
  simp only [BitVec.getLsbD_append]
  simp only [Nat.sub_sub, Nat.reduceAdd, h20, h24, h30]

theorem headerWord_toNat (fmt : BitVec 2) (type : BitVec 6) (tc : BitVec 4) (be : Byte) {n : Nat} (h : n < 2 ^ 12) :
    (headerWord fmt type tc be n).toNat =
      fmt.toNat * 2 ^ 30 + type.toNat * 2 ^ 24 + tc.toNat * 2 ^ 20 + be.toNat * 2 ^ 12 + n := by
  rw [headerWord_eq_append]
  simp only [toNat_append_eq_add, BitVec.toNat_ofNat, Nat.mod_eq_of_lt h]
  omega

/-! ## DEC_WR (R120 to R122) -/

/-- R68: the format check of DEC_WR. -/
theorem isWrite_iff (w : Word) : isWrite w ↔ formatMatches w fmtWr codes.typeWr = true := by
  have hf := bits_lt w 31 30
  have ht := bits_lt w 29 24
  rw [formatMatches_iff, fmtOf_eq_bits, typeOf_eq_bits, ← BitVec.toNat_inj, ← BitVec.toNat_inj, BitVec.toNat_ofNat,
    BitVec.toNat_ofNat, Nat.mod_eq_of_lt hf, Nat.mod_eq_of_lt ht]
  rfl

section DecWr

variable {buf : Bytes} (s : State)

theorem exec_decWr_of_error {e : ErrorKind} (h : decodeWrite codes buf = .error e) :
    exec (.decWr buf) s = .next (s.answered (.err e)) := by
  simp only [exec, execDecWr, h]
  rfl

theorem exec_decWr_of_ok {w : WriteRequest} (h : decodeWrite codes buf = .ok w) :
    exec (.decWr buf) s = .next (s.answered (.ok (.record (.write w)))) := by
  simp only [exec, execDecWr, h]
  rfl

end DecWr

section Packet

variable {w0 w1 w2 : Word} {rest : Bytes}

theorem decodeWrite_packet_of_not_isWrite (h : ¬ isWrite w0) :
    decodeWrite codes (packet w0 w1 w2 rest) = .error .malformedHeader := by
  rw [isWrite_iff] at h
  exact decodeWrite_of_malformed (by simp) (by simpa only [dw_packet_zero] using h)

variable (hw : isWrite w0)
include hw

theorem formatMatches_packet : formatMatches (dw (packet w0 w1 w2 rest) 0) fmtWr codes.typeWr = true := by
  rw [dw_packet_zero]
  exact (isWrite_iff w0).mp hw

/-- R122: of a write request, only Length 0 is invalid. -/
theorem decodeWrite_packet_of_len_eq_zero (hl : len w0 = 0) :
    decodeWrite codes (packet w0 w1 w2 rest) = .error .invalidLength :=
  decodeWrite_of_invalidLength (by simp) (formatMatches_packet hw) (by simp [hl])

/-- R121: the tag byte counts where TP announces it. -/
theorem decodeWrite_packet_of_truncated (hl : len w0 ≠ 0) (hcap : rest.length < 4 * len w0 + bits w2 0 0) :
    decodeWrite codes (packet w0 w1 w2 rest) = .error .truncatedBuffer := by
  refine decodeWrite_of_truncated (by simp) (formatMatches_packet hw) ?_ ?_ <;>
    rw [dw_packet_zero, toNat_lengthOf]
  · exact Nat.one_le_iff_ne_zero.mpr hl
  · rw [dw_packet_two, tagPresent_eq_bits, packet_length]
    omega

/-- R120: past every check, the record is that of the spec. -/
theorem decodeWrite_packet_eq_ok (hl : len w0 ≠ 0) (hcap : 4 * len w0 + bits w2 0 0 ≤ rest.length) :
    decodeWrite codes (packet w0 w1 w2 rest) = .ok (writeRecord w0 w1 w2 rest) := by
  obtain ⟨hfmt, htype⟩ := (formatMatches_iff ..).mp ((isWrite_iff w0).mp hw)
  have htag (htp : bits w2 0 0 = 1) : some (byteAt rest (4 * len w0)) = rest[4 * len w0]? := by
    have hlt : 4 * len w0 < rest.length := by omega
    rw [byteAt_of_lt rest _ hlt, List.getElem?_eq_getElem hlt]
  rw [decodeWrite_ok_iff]
  simp only [dw_packet_zero, dw_packet_one, dw_packet_two, toNat_lengthOf, tagPresent_eq_bits, packet_length,
    byteAt_packet, slice_packet]
  refine ⟨by omega, hfmt, htype, by omega, by omega, ?_⟩
  simp +contextual only [writeRecord, fmtOf_eq_bits, typeOf_eq_bits, tcOf_eq_bits, beOf_eq_bits, lengthOf_eq_len, htag]

end Packet

/-- Settles O23: a long buffer is three dwords and a rest, and the first check it fails decides. -/
theorem decWrDecodesOrReportsTheFirstError : Obligations.DecWrDecodesOrReportsTheFirstError :=
  fun s =>
    ⟨fun _ hlen => exec_decWr_of_error s (decodeWrite_of_short (by omega)), fun _ => rfl,
      fun _ _ _ _ =>
        ⟨fun hw => exec_decWr_of_error s (decodeWrite_packet_of_not_isWrite hw),
          fun hw hl => exec_decWr_of_error s (decodeWrite_packet_of_len_eq_zero hw hl),
          fun hw hl hcap => exec_decWr_of_error s (decodeWrite_packet_of_truncated hw hl hcap),
          fun hw hl hcap => exec_decWr_of_ok s (decodeWrite_packet_eq_ok hw hl hcap)⟩⟩

/-! ## ENC_WR (R123, R124) -/

/-- R45: a packet that fits the output buffer is delivered, whichever encoder gave it. -/
theorem emit_of_fits {r : Except ErrorKind (Bytes × Nat)} {out : Bytes} {n : Nat} {s : State} (hr : r = .ok (out, n))
    (h : holds s out.length) : emit r s = .next (s.delivered out n) := by
  subst hr
  exact deliver_of_fits ((capacityAllows_iff ..).mpr h)

theorem exec_encWr_of_error {address : Word} {data : Bytes} {be tag : Byte} {e : ErrorKind} (s : State)
    (h : encodeWrite codes address data be tag = .error e) :
    exec (.encWr address data be tag) s = .next (s.answered (.err e)) := by
  simp only [exec, execEncWr, h]
  rfl

section EncWr

variable (address : Word) {data : Bytes} (be tag : Byte)

/-- The packet of R73 as three dwords and a rest. -/
theorem writePacket_eq_packet :
    writePacket address data be tag =
      packet (BitVec.ofNat 32 (0x40000000 + be.toNat * 2 ^ 12 + data.length / 4)) address 1 (data ++ [tag]) := by
  simp only [writePacket, packet, List.append_assoc]

@[simp] theorem writePacket_length : (writePacket address data be tag).length = 13 + data.length := by
  rw [writePacket_eq_packet, packet_length, List.length_append, List.length_singleton]
  omega

theorem encodeWrite_of_invalidPayloadLength (h : data.length = 0 ∨ data.length % 4 ≠ 0) :
    encodeWrite codes address data be tag = .error .invalidPayloadLength :=
  if_pos h

theorem encodeWrite_of_payloadTooLarge (hlong : 16380 < data.length) (h4 : data.length % 4 = 0) :
    encodeWrite codes address data be tag = .error .payloadTooLarge := by
  have hpos : ¬ (data.length = 0 ∨ data.length % 4 ≠ 0) := by omega
  have hmax : lengthInRange (data.length / 4) 1 maxLen = false := by
    rw [← Bool.not_eq_true, lengthInRange_iff, maxLen]
    omega
  simp only [encodeWrite, hpos, hmax]
  rfl

variable (hpos : 4 ≤ data.length) (hle : data.length ≤ 16380) (h4 : data.length % 4 = 0)

include hle in
/-- R73: DW0 as ENC_WR composes it. -/
theorem headerWord_write :
    headerWord fmtWr codes.typeWr encTc be (data.length / 4) =
      BitVec.ofNat 32 (0x40000000 + be.toNat * 2 ^ 12 + data.length / 4) := by
  have hbe := be.isLt
  have hfmt : fmtWr.toNat = 1 := rfl
  have htype : codes.typeWr.toNat = 0 := rfl
  have htc : encTc.toNat = 0 := rfl
  rw [← BitVec.toNat_inj, headerWord_toNat _ _ _ _ (by omega), BitVec.toNat_ofNat, hfmt, htype, htc]
  omega

include hpos hle h4

theorem encodeWrite_eq_writePacket :
    encodeWrite codes address data be tag = .ok (writePacket address data be tag, 13 + data.length) := by
  rw [encodeWrite_ok_iff, headerWord_write be hle]
  simp only [hpos, hle, h4, writePacket, le32_eq_bytes4, and_self]

theorem exec_encWr_delivers {s : State} (hs : holds s (13 + data.length)) :
    exec (.encWr address data be tag) s =
      .next (s.delivered (writePacket address data be tag) (13 + data.length)) :=
  emit_of_fits (encodeWrite_eq_writePacket address be tag hpos hle h4) (by rwa [writePacket_length])

/-- R126: DEC_WR reads the packet of R73. -/
theorem decodeWrite_writePacket :
    decodeWrite codes (writePacket address data be tag) = .ok
      { fmt := 0b01, type := 0, tc := 0, be := be, length := BitVec.ofNat 12 (data.length / 4)
        address := address, tag := some tag, payload := data } :=
  decodeWrite_encodeWrite (encodeWrite_eq_writePacket address be tag hpos hle h4)

end EncWr

/-- Settles O30: the first check that `data` fails decides, and otherwise the packet fits and is delivered. -/
theorem encWrWritesItsPacketOrReportsTheFirstError : Obligations.EncWrWritesItsPacketOrReportsTheFirstError := by
  intro address data be tag s
  exact ⟨rfl, fun h => exec_encWr_of_error s (encodeWrite_of_invalidPayloadLength address be tag h),
    fun hlong h4 => exec_encWr_of_error s (encodeWrite_of_payloadTooLarge address be tag hlong h4),
    fun hpos hle h4 => exec_encWr_delivers address be tag hpos hle h4⟩

/-! ## ENC_WR, then DEC_WR (R126) -/

/-- A packet delivered is the response, with its length, and stands in the output buffer. -/
theorem delivered_packet (s : State) (out : Bytes) :
    (s.delivered out out.length).response = some (.ok (.packet out out.length)) ∧
      ∀ a, a < out.length → Memory.read (s.delivered out out.length).outBuf a = out[a]? := by
  refine ⟨rfl, fun a ha => ?_⟩
  rw [State.delivered_outBuf, Memory.read_store, if_pos ha]

/-- Settles O44: the packet is delivered, and DEC_WR reads it back in any state. -/
theorem writeRequestsRoundTrip : Obligations.WriteRequestsRoundTrip := by
  intro address data be tag s hpos hle h4 hs
  have henc := exec_encWr_delivers address be tag hpos hle h4 hs
  rw [← writePacket_length address be tag] at henc
  obtain ⟨hresp, hread⟩ := delivered_packet s (writePacket address data be tag)
  exact ⟨_, _, henc, hresp, hread, fun u => exec_decWr_of_ok u (decodeWrite_writePacket address be tag hpos hle h4)⟩

/-! ## DEC_WR, then ENC_WR (R127) -/

theorem packet_inj {w0 w1 w2 w0' w1' w2' : Word} {rest rest' : Bytes} :
    packet w0 w1 w2 rest = packet w0' w1' w2' rest' ↔ w0 = w0' ∧ w1 = w1' ∧ w2 = w2' ∧ rest = rest' := by
  refine ⟨fun h => ?_, by rintro ⟨rfl, rfl, rfl, rfl⟩; rfl⟩
  obtain rfl : w0 = w0' := by simpa only [dw_packet_zero] using congrArg (dw · 0) h
  obtain rfl : w1 = w1' := by simpa only [dw_packet_one] using congrArg (dw · 1) h
  obtain rfl : w2 = w2' := by simpa only [dw_packet_two] using congrArg (dw · 2) h
  exact ⟨rfl, rfl, rfl, List.append_cancel_left h⟩

/-- R72: ENC_WR composes the Header Word it was decoded from exactly where that has TC = 0. -/
theorem write_header_eq_iff {w : Word} (hw : isWrite w) :
    BitVec.ofNat 32 (0x40000000 + bits w 19 12 * 2 ^ 12 + len w) = w ↔ bits w 23 20 = 0 := by
  obtain ⟨hfmt, htype⟩ := hw
  have hfields := toNat_eq_fields w
  have hbe := bits_lt w 19 12
  have hlen := len_lt w
  rw [← BitVec.toNat_inj, BitVec.toNat_ofNat]
  omega

/-- R63: DW2 of ENC_WR is TP = 1 with every reserved bit 0. -/
theorem one_eq_iff (w : Word) : 1 = w ↔ bits w 0 0 = 1 ∧ bits w 31 1 = 0 := by
  have hone : (1 : Word).toNat = 1 := rfl
  have hlt := w.isLt
  simp only [← BitVec.toNat_inj, hone, bits]
  omega

/-- A payload and a tag are the whole rest of a packet exactly where nothing follows the tag. -/
theorem take_append_singleton_eq_iff {rest : Bytes} {n : Nat} {g : Byte} (h : n ≤ rest.length) :
    rest.take n ++ [g] = rest ↔ rest.length = n + 1 ∧ rest[n]? = some g := by
  have hlen : (rest.take n).length = n := List.length_take_of_le h
  constructor
  · intro heq
    rw [← heq]
    simp [hlen]
  · rintro ⟨hl, hg⟩
    obtain ⟨hlt, rfl⟩ := List.getElem?_eq_some_iff.mp hg
    rw [List.take_append_getElem hlt, List.take_of_length_le hl.le]

/-- R127: the packet written from a decoded record is the packet decoded exactly under the four conditions. -/
theorem writePacket_writeRecord_eq_iff {w0 w1 w2 : Word} {rest : Bytes} {g : Byte} (hw : isWrite w0)
    (hcap : 4 * len w0 ≤ rest.length) :
    writePacket w1 (rest.take (4 * len w0)) (BitVec.ofNat 8 (bits w0 19 12)) g = packet w0 w1 w2 rest ↔
      bits w2 0 0 = 1 ∧ bits w0 23 20 = 0 ∧ bits w2 31 1 = 0 ∧ rest.length = 4 * len w0 + 1 ∧
        (writeRecord w0 w1 w2 rest).tag = some g := by
  have hlen : (rest.take (4 * len w0)).length / 4 = len w0 := by
    rw [List.length_take_of_le hcap]
    omega
  have hbe : (BitVec.ofNat 8 (bits w0 19 12)).toNat = bits w0 19 12 := by
    rw [BitVec.toNat_ofNat, Nat.mod_eq_of_lt (bits_lt w0 19 12)]
  rw [writePacket_eq_packet, packet_inj, hlen, hbe, write_header_eq_iff hw, one_eq_iff,
    take_append_singleton_eq_iff hcap, writeRecord]
  by_cases htp : bits w2 0 0 = 1
  · simp only [htp, if_true, true_and]
  · simp only [htp, false_and, and_false]

/-- Settles O47: the record decoded has a payload ENC_WR takes, and the packet written from it is compared with the packet
decoded dword by dword. -/
theorem writeRequestsReencodeUnderFourConditions : Obligations.WriteRequestsReencodeUnderFourConditions := by
  intro w0 w1 w2 rest g s t hw hl hcap hs w
  have hrest : 4 * len w0 ≤ rest.length := by omega
  have hmax := len_lt w0
  have hdata : w.payload.length = 4 * len w0 := List.length_take_of_le hrest
  have henc : exec (.encWr w.address w.payload w.be g) s = _ :=
    exec_encWr_delivers w.address w.be g (by omega) (by omega) (by omega) (by rwa [hdata])
  rw [← writePacket_length w.address w.be g] at henc
  exact ⟨exec_decWr_of_ok t (decodeWrite_packet_eq_ok hw hl hcap), _, _, henc, rfl,
    writePacket_writeRecord_eq_iff hw hrest⟩

end Sys2Proof.Machine

/-! SUPPORT. The statements on the read-request codec: what DEC_RD answers a buffer that begins with three dwords, the
packet ENC_RD writes, and DEC_RD after ENC_RD. -/

namespace Sys2Proof.Machine

open Sys2Proof.Expect

/-! ## The format check and the Tag (R62, R68) -/

/-- R180: the format check of any decoder, in the bits of the Header Word. -/
theorem formatMatches_iff_bits (w : Word) (f : BitVec 2) (t : BitVec 6) :
    formatMatches w f t = true ↔ bits w 31 30 = f.toNat ∧ bits w 29 24 = t.toNat := by
  rw [formatMatches_iff, fmtOf_eq_bits, typeOf_eq_bits, ← BitVec.toNat_inj, ← BitVec.toNat_inj, BitVec.toNat_ofNat,
    BitVec.toNat_ofNat, Nat.mod_eq_of_lt (bits_lt w 31 30), Nat.mod_eq_of_lt (bits_lt w 29 24)]

/-- R68: the format check of DEC_RD. -/
theorem isRead_iff (w : Word) : isRead w ↔ formatMatches w fmtRd codes.typeRd = true :=
  (formatMatches_iff_bits w fmtRd codes.typeRd).symm

theorem tagOf_eq_bits (w : Word) : tagOf w = BitVec.ofNat 8 (bits w 7 0) := by
  rw [tagOf, extractField_eq_bits, BitVec.setWidth_ofNat_of_le (by decide)]

/-! ## How a decoder ends (R221) -/

section Respond

variable {α : Type} {d : Except ErrorKind α} {f : α → Result} (s : State)

theorem respond_map_of_error {e : ErrorKind} (h : d = .error e) :
    respond (d.map f) s = .next (s.answered (.err e)) := by
  subst h
  exact respond_error e s

theorem respond_map_of_ok {a : α} (h : d = .ok a) : respond (d.map f) s = .next (s.answered (.ok (f a))) := by
  subst h
  exact respond_ok (f a) s

end Respond

/-! ## DEC_RD (R140, R141) -/

section DecRd

variable {buf : Bytes} (s : State)

theorem exec_decRd_of_error {e : ErrorKind} (h : decodeRead codes buf = .error e) :
    exec (.decRd buf) s = .next (s.answered (.err e)) :=
  respond_map_of_error s h

theorem exec_decRd_of_ok {q : ReadRequest} (h : decodeRead codes buf = .ok q) :
    exec (.decRd buf) s = .next (s.answered (.ok (.record (.read q)))) :=
  respond_map_of_ok s h

end DecRd

section Packet

variable {w0 w1 w2 : Word} {rest : Bytes}

theorem formatMatches_packet_read :
    formatMatches (dw (packet w0 w1 w2 rest) 0) fmtRd codes.typeRd = true ↔ isRead w0 := by
  rw [dw_packet_zero, isRead_iff]

theorem decodeRead_packet_of_not_isRead (h : ¬ isRead w0) :
    decodeRead codes (packet w0 w1 w2 rest) = .error .malformedHeader :=
  decodeRead_of_malformed (by simp) (formatMatches_packet_read.not.mpr h)

variable (hr : isRead w0)
include hr

theorem decodeRead_packet_of_len_ne_one (hl : len w0 ≠ 1) :
    decodeRead codes (packet w0 w1 w2 rest) = .error .invalidLength :=
  decodeRead_of_invalidLength (by simp) (formatMatches_packet_read.mpr hr) (by simpa using hl)

/-- R141: Length 1 announces no payload bytes, so no `rest` is too short. -/
theorem decodeRead_packet_eq_ok (hl : len w0 = 1) :
    decodeRead codes (packet w0 w1 w2 rest) = .ok (readRecord w0 w1 w2) := by
  obtain ⟨hfmt, htype⟩ := (formatMatches_iff ..).mp ((isRead_iff w0).mp hr)
  rw [decodeRead_ok_iff, dw_packet_zero, dw_packet_one, dw_packet_two, toNat_lengthOf]
  refine ⟨by simp, hfmt, htype, hl, ?_⟩
  rw [readRecord, fmtOf_eq_bits, typeOf_eq_bits, tcOf_eq_bits, beOf_eq_bits, tagOf_eq_bits]

end Packet

/-- Settles O24: a long buffer is three dwords and a rest, and the first check it fails decides. -/
theorem decRdDecodesOrReportsTheFirstError : Obligations.DecRdDecodesOrReportsTheFirstError :=
  fun s =>
    ⟨fun _ hlen => exec_decRd_of_error s (decodeRead_of_short (by omega)), fun _ => rfl,
      fun _ _ _ _ =>
        ⟨fun hr => exec_decRd_of_error s (decodeRead_packet_of_not_isRead hr),
          fun hr hl => exec_decRd_of_error s (decodeRead_packet_of_len_ne_one hr hl),
          fun hr hl => exec_decRd_of_ok s (decodeRead_packet_eq_ok hr hl)⟩⟩

/-! ## ENC_RD (R142 to R144) -/

section EncRd

variable (address : Word) (tag : Byte)

/-- R73: DW0 as ENC_RD composes it, Length 1 and every other field 0. -/
theorem headerWord_read : headerWord fmtRd codes.typeRd encTc encBeRd 1 = 1 := by decide

theorem encodeRead_eq_readPacket : encodeRead codes address tag = (readPacket address tag, 12) := by
  simp only [encodeRead, headerWord_read, readPacket, le32_eq_bytes4, BitVec.ofNat_toNat]

theorem exec_encRd_delivers {s : State} (hs : holds s 12) :
    exec (.encRd address tag) s = .next (s.delivered (readPacket address tag) 12) :=
  emit_of_fits (congrArg Except.ok (encodeRead_eq_readPacket address tag)) hs

/-- R145: DEC_RD reads the packet of R73. -/
theorem decodeRead_readPacket :
    decodeRead codes (readPacket address tag) = .ok
      { fmt := 0b00, type := 0, tc := 0, be := 0x00, length := 1, address := address, tag := tag } := by
  have h := decodeRead_encodeRead codes address tag
  rw [encodeRead_eq_readPacket] at h
  exact h

end EncRd

/-- Settles O31: ENC_RD has no error path, and its packet is that of the spec. -/
theorem encRdAlwaysWritesItsPacket : Obligations.EncRdAlwaysWritesItsPacket :=
  fun address tag _ hs => ⟨rfl, exec_encRd_delivers address tag hs⟩

/-! ## ENC_RD, then DEC_RD (R145) -/

/-- Settles O45: the packet is delivered, and DEC_RD reads it back in any state. -/
theorem readRequestsRoundTrip : Obligations.ReadRequestsRoundTrip := by
  intro address tag s hs
  obtain ⟨hresp, hread⟩ := delivered_packet s (readPacket address tag)
  exact ⟨_, _, exec_encRd_delivers address tag hs, hresp, hread,
    fun u => exec_decRd_of_ok u (decodeRead_readPacket address tag)⟩

end Sys2Proof.Machine

/-! SUPPORT. The statements on the completion codec: the recognized statuses, what DEC_CPL answers a buffer that begins
with three dwords, the packet ENC_CPL writes, and DEC_CPL after ENC_CPL. -/

namespace Sys2Proof.Machine

open Sys2Proof.Expect

/-! ## The format check and the Status (R62, R68) -/

/-- R68: the format check of DEC_CPL. -/
theorem isCompletion_iff (w : Word) : isCompletion w ↔ formatMatches w codes.fmtCpl codes.typeCpl = true :=
  (formatMatches_iff_bits w codes.fmtCpl codes.typeCpl).symm

theorem statusOf_eq_bits (w : Word) : statusOf w = BitVec.ofNat 3 (bits w 2 0) := by
  rw [statusOf, extractField_eq_bits, BitVec.setWidth_ofNat_of_le (by decide)]

theorem toNat_statusOf (w : Word) : (statusOf w).toNat = bits w 2 0 := by
  rw [statusOf_eq_bits, BitVec.toNat_ofNat, Nat.mod_eq_of_lt (bits_lt w 2 0)]

/-- R68: the status check of the machine's configuration, both ways. -/
theorem isStatus_iff (st : BitVec 3) : isStatus st.toNat ↔ statusRecognized codes st = true := by
  unfold isStatus
  revert st
  decide

/-! ## DEC_CPL (R160, R161) -/

section DecCpl

variable {buf : Bytes} (s : State)

theorem exec_decCpl_of_error {e : ErrorKind} (h : decodeCompletion codes buf = .error e) :
    exec (.decCpl buf) s = .next (s.answered (.err e)) :=
  respond_map_of_error s h

theorem exec_decCpl_of_ok {q : Completion} (h : decodeCompletion codes buf = .ok q) :
    exec (.decCpl buf) s = .next (s.answered (.ok (.record (.completion q)))) :=
  respond_map_of_ok s h

end DecCpl

section Packet

variable {w0 w1 w2 : Word} {rest : Bytes}

theorem formatMatches_packet_completion :
    formatMatches (dw (packet w0 w1 w2 rest) 0) codes.fmtCpl codes.typeCpl = true ↔ isCompletion w0 := by
  rw [dw_packet_zero, isCompletion_iff]

theorem statusRecognized_packet :
    statusRecognized codes (statusOf (dw (packet w0 w1 w2 rest) 1)) = true ↔ isStatus (bits w1 2 0) := by
  rw [dw_packet_one, ← isStatus_iff, toNat_statusOf]

theorem decodeCompletion_packet_of_not_isCompletion (h : ¬ isCompletion w0) :
    decodeCompletion codes (packet w0 w1 w2 rest) = .error .malformedHeader :=
  decodeCompletion_of_malformed (by simp) (formatMatches_packet_completion.not.mpr h)

variable (hw : isCompletion w0)
include hw

/-- R160: whatever follows the header, an unrecognized status is reported first. -/
theorem decodeCompletion_packet_of_not_isStatus (hs : ¬ isStatus (bits w1 2 0)) :
    decodeCompletion codes (packet w0 w1 w2 rest) = .error .invalidStatus :=
  decodeCompletion_of_invalidStatus (by simp) (formatMatches_packet_completion.mpr hw)
    (statusRecognized_packet.not.mpr hs)

variable (hs : isStatus (bits w1 2 0))
include hs

theorem decodeCompletion_packet_of_truncated (hcap : rest.length < 4 * len w0) :
    decodeCompletion codes (packet w0 w1 w2 rest) = .error .truncatedBuffer := by
  refine decodeCompletion_of_truncated (by simp) (formatMatches_packet_completion.mpr hw)
    (statusRecognized_packet.mpr hs) ?_
  rw [dw_packet_zero, toNat_lengthOf, packet_length]
  omega

/-- R160: past every check, the record is that of the spec. -/
theorem decodeCompletion_packet_eq_ok (hcap : 4 * len w0 ≤ rest.length) :
    decodeCompletion codes (packet w0 w1 w2 rest) = .ok (completionRecord w0 w1 w2 rest) := by
  obtain ⟨hfmt, htype⟩ := (formatMatches_iff ..).mp ((isCompletion_iff w0).mp hw)
  rw [decodeCompletion_ok_iff, statusRecognized_packet, dw_packet_zero, dw_packet_one, dw_packet_two, toNat_lengthOf,
    packet_length, slice_packet]
  refine ⟨by omega, hfmt, htype, hs, by omega, ?_⟩
  rw [completionRecord, fmtOf_eq_bits, typeOf_eq_bits, tcOf_eq_bits, beOf_eq_bits, lengthOf_eq_len, statusOf_eq_bits,
    tagOf_eq_bits]

end Packet

/-- Settles O25: a long buffer is three dwords and a rest, and the first check it fails decides. -/
theorem decCplDecodesOrReportsTheFirstError : Obligations.DecCplDecodesOrReportsTheFirstError :=
  fun s =>
    ⟨fun _ hlen => exec_decCpl_of_error s (decodeCompletion_of_short (by omega)), fun _ => rfl,
      fun _ _ _ _ =>
        ⟨fun hw => exec_decCpl_of_error s (decodeCompletion_packet_of_not_isCompletion hw),
          fun hw hs => exec_decCpl_of_error s (decodeCompletion_packet_of_not_isStatus hw hs),
          fun hw hs hcap => exec_decCpl_of_error s (decodeCompletion_packet_of_truncated hw hs hcap),
          fun hw hs hcap => exec_decCpl_of_ok s (decodeCompletion_packet_eq_ok hw hs hcap)⟩⟩

/-! ## ENC_CPL (R162 to R164) -/

/-- R221: an encoder that fails answers its error, whichever encoder it is. -/
theorem emit_of_error {r : Except ErrorKind (Bytes × Nat)} {e : ErrorKind} (s : State) (h : r = .error e) :
    emit r s = .next (s.answered (.err e)) := by
  subst h
  exact emit_error e s

section EncCpl

variable {data : Bytes} (status : BitVec 3) (tag : Byte)

/-- The packet of R73 as three dwords and a rest. -/
theorem completionPacket_eq_packet :
    completionPacket data status tag =
      packet (BitVec.ofNat 32 (0x8A000000 + data.length / 4)) (status.setWidth 32) (tag.setWidth 32) data := by
  simp only [completionPacket, packet, BitVec.ofNat_toNat]

@[simp] theorem completionPacket_length : (completionPacket data status tag).length = 12 + data.length := by
  rw [completionPacket_eq_packet, packet_length]

theorem encodeCompletion_of_invalidPayloadLength (h : data.length % 4 ≠ 0) :
    encodeCompletion codes data status tag = .error .invalidPayloadLength :=
  if_pos h

variable (h4 : data.length % 4 = 0)

include h4 in
theorem encodeCompletion_of_payloadTooLarge (hlong : 16380 < data.length) :
    encodeCompletion codes data status tag = .error .payloadTooLarge := by
  have hmax : lengthInRange (data.length / 4) 0 maxLen = false := by
    rw [← Bool.not_eq_true, lengthInRange_iff, maxLen]
    omega
  simp only [encodeCompletion, h4, hmax]
  rfl

variable (hle : data.length ≤ 16380)

include h4 hle in
theorem encodeCompletion_of_invalidStatus (hs : ¬ isStatus status.toNat) :
    encodeCompletion codes data status tag = .error .invalidStatus := by
  have hrange : lengthInRange (data.length / 4) 0 maxLen = true := by
    rw [lengthInRange_iff, maxLen]
    omega
  rw [isStatus_iff, Bool.not_eq_true] at hs
  simp only [encodeCompletion, h4, hrange, hs]
  rfl

include hle in
/-- R73: DW0 as ENC_CPL composes it. -/
theorem headerWord_completion :
    headerWord codes.fmtCpl codes.typeCpl encTc encBeCpl (data.length / 4) =
      BitVec.ofNat 32 (0x8A000000 + data.length / 4) := by
  have hfmt : codes.fmtCpl.toNat = 2 := rfl
  have htype : codes.typeCpl.toNat = 0x0A := rfl
  have htc : encTc.toNat = 0 := rfl
  have hbe : encBeCpl.toNat = 0 := rfl
  rw [← BitVec.toNat_inj, headerWord_toNat _ _ _ _ (by omega), BitVec.toNat_ofNat, hfmt, htype, htc, hbe]
  omega

variable (hs : isStatus status.toNat)
include h4 hle hs

theorem encodeCompletion_eq_completionPacket :
    encodeCompletion codes data status tag = .ok (completionPacket data status tag, 12 + data.length) := by
  rw [encodeCompletion_ok_iff, headerWord_completion hle, le32_append_eq_packet, ← completionPacket_eq_packet]
  exact ⟨hle, h4, statusRecognized_of_isStatus hs, rfl⟩

theorem exec_encCpl_delivers {s : State} (hfits : holds s (12 + data.length)) :
    exec (.encCpl data status tag) s =
      .next (s.delivered (completionPacket data status tag) (12 + data.length)) :=
  emit_of_fits (encodeCompletion_eq_completionPacket status tag h4 hle hs) (by rwa [completionPacket_length])

/-- R165: DEC_CPL reads the packet of R73. -/
theorem decodeCompletion_completionPacket :
    decodeCompletion codes (completionPacket data status tag) = .ok
      { fmt := 0b10, type := 0x0A, tc := 0, be := 0x00, length := BitVec.ofNat 12 (data.length / 4)
        status := status, tag := tag, payload := data } :=
  decodeCompletion_encodeCompletion (encodeCompletion_eq_completionPacket status tag h4 hle hs)

end EncCpl

/-- Settles O32: the payload checks come first, then the status, and otherwise the packet fits and is delivered. -/
theorem encCplWritesItsPacketOrReportsTheFirstError : Obligations.EncCplWritesItsPacketOrReportsTheFirstError :=
  fun _ status tag s =>
    ⟨rfl, fun h => emit_of_error s (encodeCompletion_of_invalidPayloadLength status tag h),
      fun hlong h4 => emit_of_error s (encodeCompletion_of_payloadTooLarge status tag h4 hlong),
      fun hle h4 hs => emit_of_error s (encodeCompletion_of_invalidStatus status tag h4 hle hs),
      fun hle h4 hs hfits => exec_encCpl_delivers status tag h4 hle hs hfits⟩

/-! ## ENC_CPL, then DEC_CPL (R165) -/

/-- Settles O46: the packet is delivered, and DEC_CPL reads it back in any state. -/
theorem completionsRoundTrip : Obligations.CompletionsRoundTrip := by
  intro data status tag s hle h4 hs hfits
  have henc := exec_encCpl_delivers status tag h4 hle hs hfits
  rw [← completionPacket_length status tag] at henc
  obtain ⟨hresp, hread⟩ := delivered_packet s (completionPacket data status tag)
  exact ⟨_, _, henc, hresp, hread,
    fun u => exec_decCpl_of_ok u (decodeCompletion_completionPacket status tag h4 hle hs)⟩

end Sys2Proof.Machine

/-! SUPPORT. The statements on the validators: each replies its predicate, and the predicate in plain arithmetic. -/

namespace Sys2Proof.Machine

open Sys2Proof.Expect

/-! ## VAL_FORMAT (R180) -/

/-- R180: VAL_FORMAT answers the comparison of the two header fields, as numbers. -/
theorem exec_valFormat (w : Word) (f : BitVec 2) (ty : BitVec 6) (s : State) :
    exec (.valFormat w f ty) s =
      .next (s.answered (.ok (.flag (decide (bits w 31 30 = f.toNat ∧ bits w 29 24 = ty.toNat))))) := by
  have hflag : formatMatches w f ty = decide (bits w 31 30 = f.toNat ∧ bits w 29 24 = ty.toNat) := by
    rw [Bool.eq_iff_iff, formatMatches_iff_bits, decide_eq_true_iff]
  rw [exec, execValFormat, reply_eq, hflag]

/-- Settles O36: the format check shared with the decoders, replied as a flag. -/
theorem valFormatComparesFormatAndType : Obligations.ValFormatComparesFormatAndType :=
  fun w f ty s => ⟨exec_valFormat w f ty s, (Laws.Encoding.valFormat w f ty).1⟩

/-! ## VAL_LENGTH (R181) -/

/-- R181: VAL_LENGTH answers membership in the closed range. -/
theorem exec_valLength (l lo hi : Word) (s : State) :
    exec (.valLength l lo hi) s =
      .next (s.answered (.ok (.flag (decide (lo.toNat ≤ l.toNat ∧ l.toNat ≤ hi.toNat))))) := by
  rw [exec, execValLength, reply_eq, lengthInRange, Bool.decide_and]

/-- R181: an empty range holds no length. -/
theorem exec_valLength_of_empty {lo hi : Word} (h : hi.toNat < lo.toNat) (l : Word) (s : State) :
    exec (.valLength l lo hi) s = .next (s.answered (.ok (.flag false))) := by
  have hout : ¬ (lo.toNat ≤ l.toNat ∧ l.toNat ≤ hi.toNat) := by omega
  rw [exec_valLength, decide_eq_false hout]

/-- Settles O37: the range check, whose flag is 0 for every length when the bounds cross. -/
theorem valLengthTestsAClosedRange : Obligations.ValLengthTestsAClosedRange :=
  fun l lo hi s =>
    ⟨exec_valLength l lo hi s, fun h => exec_valLength_of_empty h l s, (Laws.Encoding.valLength l lo hi).1⟩

/-! ## VAL_CAPACITY (R182) -/

/-- R182: VAL_CAPACITY answers the comparison of the buffer's length. -/
theorem exec_valCapacity (buf : Bytes) (n : Word) (s : State) :
    exec (.valCapacity buf n) s = .next (s.answered (.ok (.flag (decide (buf.length ≥ n.toNat))))) := by
  rw [exec, execValCapacity, reply_eq, bufferHasCapacity]

/-- Settles O38: the buffer enters the answer by its length alone. -/
theorem valCapacityComparesTheLengthOfTheBuffer : Obligations.ValCapacityComparesTheLengthOfTheBuffer := by
  refine ⟨fun buf n s => ⟨exec_valCapacity buf n s, (Laws.Encoding.valCapacity buf n).1⟩, ?_⟩
  intro buf buf' n s hlen
  rw [exec_valCapacity, exec_valCapacity, hlen]

end Sys2Proof.Machine

/-! SUPPORT. The statements on the dispatch decoder: how DEC_ANY ends where its Format selects a decoder, and how that
compares with the decoder's own end. -/

namespace Sys2Proof.Machine

open Sys2Proof.Expect

/-! ## The kind added on success (R200) -/

section Tagged

variable {α : Type} {d : Except ErrorKind α} {k : PacketKind} {g : α → Record} (s : State)

theorem respond_map_eq_error_iff {f : α → Result} {e : ErrorKind} :
    respond (d.map f) s = .next (s.answered (.err e)) ↔ d = .error e := by
  cases d <;> simp [Except.map, State.answered]

theorem respond_map_eq_ok_iff {f : α → Result} {v : Result} :
    respond (d.map f) s = .next (s.answered (.ok v)) ↔ ∃ a, d = .ok a ∧ f a = v := by
  cases d <;> simp [Except.map, State.answered]

/-- The kind does not enter an error. -/
theorem respond_tagged_eq_error_iff {e : ErrorKind} :
    respond (d.map fun a => .tagged k (g a)) s = .next (s.answered (.err e)) ↔
      respond (d.map fun a => .record (g a)) s = .next (s.answered (.err e)) := by
  rw [respond_map_eq_error_iff, respond_map_eq_error_iff]

/-- The kind is all that is added to a record. -/
theorem respond_tagged_eq_ok_iff {q : Record} :
    respond (d.map fun a => .tagged k (g a)) s = .next (s.answered (.ok (.tagged k q))) ↔
      respond (d.map fun a => .record (g a)) s = .next (s.answered (.ok (.record q))) := by
  simp only [respond_map_eq_ok_iff, Result.tagged.injEq, Result.record.injEq, true_and]

variable {buf : Bytes}

theorem exec_decAny_of_error {e : ErrorKind} (h : decodeAny codes buf = .error e) :
    exec (.decAny buf) s = .next (s.answered (.err e)) :=
  respond_map_of_error s h

/-- Where one decoder was selected, DEC_ANY ends as that decoder would, with the kind. -/
theorem exec_decAny_of_map (h : decodeAny codes buf = d.map fun a => (k, g a)) :
    exec (.decAny buf) s = respond (d.map fun a => .tagged k (g a)) s := by
  rw [exec, execDecAny, h]
  cases d <;> rfl

end Tagged

/-! ## The Format that selects (R67, R200) -/

section Format

variable {w0 w1 w2 : Word} {rest : Bytes} (s : State)

theorem fmtOf_packet {n : Nat} (hf : bits w0 31 30 = n) : fmtOf (dw (packet w0 w1 w2 rest) 0) = BitVec.ofNat 2 n := by
  rw [dw_packet_zero, fmtOf_eq_bits, hf]

theorem exec_decAny_packet_of_read (hf : bits w0 31 30 = 0) :
    exec (.decAny (packet w0 w1 w2 rest)) s =
      respond ((decodeRead codes (packet w0 w1 w2 rest)).map fun q => .tagged .readRequest (.read q)) s :=
  exec_decAny_of_map s (decodeAny_of_fmtRd (by simp) (fmtOf_packet hf))

theorem exec_decAny_packet_of_write (hf : bits w0 31 30 = 1) :
    exec (.decAny (packet w0 w1 w2 rest)) s =
      respond ((decodeWrite codes (packet w0 w1 w2 rest)).map fun w => .tagged .writeRequest (.write w)) s :=
  exec_decAny_of_map s (decodeAny_of_fmtWr (by simp) (fmtOf_packet hf))

theorem exec_decAny_packet_of_completion (hf : bits w0 31 30 = 2) :
    exec (.decAny (packet w0 w1 w2 rest)) s =
      respond ((decodeCompletion codes (packet w0 w1 w2 rest)).map fun q => .tagged .completion (.completion q)) s :=
  exec_decAny_of_map s (decodeAny_of_fmtCpl (by simp) codesValid_codes (fmtOf_packet hf))

/-- R67: Format `0b11` is of no packet type. -/
theorem decodeAny_packet_of_unknown (hf : bits w0 31 30 = 3) :
    decodeAny codes (packet w0 w1 w2 rest) = .error .malformedHeader := by
  refine decodeAny_of_unknown (by simp) ?_ ?_ ?_ <;> rw [fmtOf_packet hf] <;> decide

/-! ## The decoders not selected (R201) -/

theorem exec_decRd_packet_of_other (hf : bits w0 31 30 ≠ 0) :
    exec (.decRd (packet w0 w1 w2 rest)) s = .next (s.answered (.err .malformedHeader)) :=
  exec_decRd_of_error s (decodeRead_packet_of_not_isRead fun hr => hf hr.1)

theorem exec_decWr_packet_of_other (hf : bits w0 31 30 ≠ 1) :
    exec (.decWr (packet w0 w1 w2 rest)) s = .next (s.answered (.err .malformedHeader)) :=
  exec_decWr_of_error s (decodeWrite_packet_of_not_isWrite fun hw => hf hw.1)

theorem exec_decCpl_packet_of_other (hf : bits w0 31 30 ≠ 2) :
    exec (.decCpl (packet w0 w1 w2 rest)) s = .next (s.answered (.err .malformedHeader)) :=
  exec_decCpl_of_error s (decodeCompletion_packet_of_not_isCompletion fun hc => hf hc.1)

end Format

/-- Settles O26: the packet's Format selects its type's decoder, which succeeds. -/
theorem decAnyDecodesEveryPacketType : Obligations.DecAnyDecodesEveryPacketType := by
  intro s w0 w1 w2 rest
  refine ⟨fun hr hl => ?_, fun hw hl hcap => ?_, fun hc hs hcap => ?_⟩
  · rw [exec_decAny_packet_of_read s hr.1]
    exact respond_map_of_ok s (decodeRead_packet_eq_ok hr hl)
  · rw [exec_decAny_packet_of_write s hw.1]
    exact respond_map_of_ok s (decodeWrite_packet_eq_ok hw hl hcap)
  · rw [exec_decAny_packet_of_completion s hc.1]
    exact respond_map_of_ok s (decodeCompletion_packet_eq_ok hc hs hcap)

/-- Settles O27: past the buffer's length the Format decides, the decoder selected ends alike with or without the kind,
and each of the others finds another type's Format. -/
theorem decAnyIsTheDecoderItsFormatSelects : Obligations.DecAnyIsTheDecoderItsFormatSelects := by
  refine ⟨fun _ s hlen => exec_decAny_of_error s (decodeAny_of_short (by omega)), fun _ => rfl, ?_⟩
  intro w0 w1 w2 rest s e q
  refine ⟨fun hf => ?_, fun hf => ?_, fun hf => ?_, fun hf => ?_⟩
  · rw [exec_decAny_packet_of_read s hf]
    exact ⟨respond_tagged_eq_error_iff s, respond_tagged_eq_ok_iff s,
      exec_decWr_packet_of_other s (by omega), exec_decCpl_packet_of_other s (by omega)⟩
  · rw [exec_decAny_packet_of_write s hf]
    exact ⟨respond_tagged_eq_error_iff s, respond_tagged_eq_ok_iff s,
      exec_decRd_packet_of_other s (by omega), exec_decCpl_packet_of_other s (by omega)⟩
  · rw [exec_decAny_packet_of_completion s hf]
    exact ⟨respond_tagged_eq_error_iff s, respond_tagged_eq_ok_iff s,
      exec_decRd_packet_of_other s (by omega), exec_decWr_packet_of_other s (by omega)⟩
  · exact exec_decAny_of_error s (decodeAny_packet_of_unknown hf)

end Sys2Proof.Machine

/-! SUPPORT. The statements on errors and responses: the numbers of the codes, the codes each codec and each operation
can give, and what an error response leaves unchanged. -/

namespace Sys2Proof.Machine

open Sys2Proof.Expect

/-! ## The numbers of the codes (R222) -/

theorem response_code_lt (r : Response) : r.code.toNat < 9 := by
  cases r with
  | ok => exact Nat.zero_lt_succ 8
  | err e => cases e <;> decide

theorem fault_code_lt (f : Fault) : f.code.toNat < 9 := by
  cases f <;> decide

/-- Settles O40: the table is `Response.code` and `Fault.code`, constructor by constructor. -/
theorem responseCodesAreNumbered : Obligations.ResponseCodesAreNumbered :=
  ⟨fun _ => rfl, rfl, rfl, rfl, rfl, rfl, rfl, rfl, rfl, response_code_lt, fault_code_lt⟩

/-! ## The error codes of a codec

A codec is a row of checks, each with its own error kind, so the codes it can give are collected check by check. -/

/-- Every error that `d` can be has its code in `l`. -/
def ErrorsIn {α : Type} (l : List (BitVec 4)) (d : Except ErrorKind α) : Prop :=
  ∀ e, d = .error e → e.code ∈ l

namespace ErrorsIn

variable {α β : Type} {l l' : List (BitVec 4)} {d d' : Except ErrorKind α}

theorem ok (a : α) : ErrorsIn l (.ok a : Except ErrorKind α) := nofun

theorem error {e : ErrorKind} (h : e.code ∈ l) : ErrorsIn l (.error e : Except ErrorKind α) := by
  rintro _ ⟨⟩
  exact h

theorem ite {p : Prop} [Decidable p] (h : ErrorsIn l d) (h' : ErrorsIn l d') : ErrorsIn l (if p then d else d') := by
  split
  · exact h
  · exact h'

theorem check {p : Prop} [Decidable p] {e : ErrorKind} (he : e.code ∈ l) (h : ErrorsIn l d) :
    ErrorsIn l (if p then .error e else d) :=
  ite (error he) h

theorem map (h : ErrorsIn l d) (f : α → β) : ErrorsIn l (d.map f) := by
  cases d with
  | error e => exact error (h e rfl)
  | ok a => exact ok (f a)

theorem mono (h : ErrorsIn l d) (hl : l ⊆ l') : ErrorsIn l' d := fun e he => hl (h e he)

/-- R224: an operation gives the errors of its codec, or OK. -/
theorem operation (h : ErrorsIn l d) (f : α → β) : ErrorsIn (0 :: l) (d.map f) :=
  (h.mono (List.subset_cons_self 0 l)).map f

end ErrorsIn

/-- R120: the error kinds of DEC_WR. -/
theorem errorsIn_decodeWrite (c : Config.Codes) (buf : Bytes) : ErrorsIn [1, 2, 3] (decodeWrite c buf) :=
  .check (by decide) (.check (by decide) (.check (by decide) (.check (by decide) (.ok _))))

/-- R140: the error kinds of DEC_RD. -/
theorem errorsIn_decodeRead (c : Config.Codes) (buf : Bytes) : ErrorsIn [1, 2, 3] (decodeRead c buf) :=
  .check (by decide) (.check (by decide) (.check (by decide) (.ok _)))

/-- R160, R161: the error kinds of DEC_CPL, whose Length check never fails. -/
theorem errorsIn_decodeCompletion (c : Config.Codes) (buf : Bytes) : ErrorsIn [1, 2, 6] (decodeCompletion c buf) := by
  have hlen : lengthInRange (lengthOf (dw buf 0)).toNat 0 maxLen = true :=
    (lengthInRange_iff ..).mpr ⟨Nat.zero_le _, lengthOf_le _⟩
  simp only [decodeCompletion, hlen, Bool.not_true, Bool.false_eq_true, if_false]
  exact .check (by decide) (.check (by decide) (.check (by decide) (.check (by decide) (.ok _))))

/-- R200, R201: DEC_ANY gives its own two error kinds or those of the decoder it selects. -/
theorem errorsIn_decodeAny (c : Config.Codes) (buf : Bytes) : ErrorsIn [1, 2, 3, 6] (decodeAny c buf) :=
  .check (by decide)
    (.ite (((errorsIn_decodeRead c buf).mono (by decide)).map _)
      (.ite (((errorsIn_decodeWrite c buf).mono (by decide)).map _)
        (.ite (((errorsIn_decodeCompletion c buf).mono (by decide)).map _) (.error (by decide)))))

/-- R124: the error kinds of ENC_WR. -/
theorem errorsIn_encodeWrite (c : Config.Codes) (address : Word) (data : Bytes) (be tag : Byte) :
    ErrorsIn [4, 5] (encodeWrite c address data be tag) :=
  .check (by decide) (.check (by decide) (.ok _))

/-- R164: the error kinds of ENC_CPL. -/
theorem errorsIn_encodeCompletion (c : Config.Codes) (data : Bytes) (status : BitVec 3) (tag : Byte) :
    ErrorsIn [4, 5, 6] (encodeCompletion c data status tag) :=
  .check (by decide) (.check (by decide) (.check (by decide) (.ok _)))

/-! ## The codes of an operation (R224) -/

/-- The error kinds an operation can come to are among its allowed codes. -/
theorem errorsIn_outcomeOf {i : Instr} {a : Except ErrorKind Result} (h : outcomeOf i = .ok a) :
    ErrorsIn (allowedCodes i) a := by
  cases i with
  | extract | insert =>
    simp only [outcomeOf] at h
    split at h <;> cases h
    exact .ok _
  | decWr buf =>
    cases h
    exact .operation (errorsIn_decodeWrite codes buf) _
  | encWr address data be tag =>
    cases h
    exact .operation (errorsIn_encodeWrite codes address data be tag) _
  | decRd buf =>
    cases h
    exact .operation (errorsIn_decodeRead codes buf) _
  | decCpl buf =>
    cases h
    exact .operation (errorsIn_decodeCompletion codes buf) _
  | encCpl data status tag =>
    cases h
    exact .operation (errorsIn_encodeCompletion codes data status tag) _
  | decAny buf =>
    cases h
    exact .operation (errorsIn_decodeAny codes buf) _
  | encRd | valFormat | valLength | valCapacity =>
    cases h
    exact .ok _
  | reservedC | reservedD | reservedE | reservedF => cases h

/-- OK is allowed wherever an operation can come to a result: everywhere but on the reserved rows. -/
theorem ok_code_mem_allowedCodes {i : Instr} {a : Except ErrorKind Result} (h : outcomeOf i = .ok a) :
    0 ∈ allowedCodes i := by
  cases i with
  | reservedC | reservedD | reservedE | reservedF => cases h
  | _ => exact List.mem_cons_self

theorem responseOf_code_mem_allowedCodes {i : Instr} {a : Except ErrorKind Result} (h : outcomeOf i = .ok a) :
    (responseOf a).code ∈ allowedCodes i := by
  cases a with
  | error e => exact errorsIn_outcomeOf h e rfl
  | ok v => exact ok_code_mem_allowedCodes h

/-- R102, R77: the fault of a bit-field operation is FIELD_RANGE, that of a reserved row ILLEGAL_OP. -/
theorem fault_code_mem_allowedCodes {i : Instr} {f : Fault} (h : outcomeOf i = .error f) :
    f.code ∈ allowedCodes i := by
  cases i with
  | extract | insert =>
    simp only [outcomeOf] at h
    split at h <;> cases h
    exact List.mem_cons_of_mem _ List.mem_cons_self
  | reservedC | reservedD | reservedE | reservedF =>
    cases h
    exact List.mem_cons_self
  | _ => cases h

/-! ## How an operation can stop -/

/-- R223: an operation faults only where it comes to a fault. -/
theorem conclude_fault {o : Except Fault (Except ErrorKind Result)} {s : State} {f : Fault}
    (h : conclude o s = .fault f) : o = .error f := by
  rcases o with g | e | ⟨_ | _ | _ | _ | ⟨out, olen⟩⟩
  case error =>
    cases h
    rfl
  case ok.ok.packet =>
    simp only [conclude, finish, deliver] at h
    split at h <;> cases h
  all_goals cases h

/-- Only an encoder comes to a packet: on an unbounded output buffer it would deliver it. -/
theorem writesOutput_of_packet {i : Instr} {out : Bytes} {olen : Nat}
    (h : outcomeOf i = .ok (.ok (.packet out olen))) : writesOutput i = true := by
  have hnext : exec i State.reset = .next (State.reset.delivered out olen) := by
    rw [exec_eq_conclude, h]
    rfl
  obtain ⟨r, ht, hout, -⟩ | ⟨_, _, hwrites, -⟩ := exec_next hnext
  · obtain rfl : .ok (.packet out olen) = r := Option.some.inj (congrArg State.response ht)
    cases hout
  · exact hwrites

/-- R46: an operation is refused only as an encoder whose packet does not fit. -/
theorem exec_refused {i : Instr} {s : State} {q : Refusal} (h : exec i s = .refused q) :
    q = .outputTooLong ∧ writesOutput i = true := by
  rw [exec_eq_conclude] at h
  obtain ⟨out, olen, ho, hlong⟩ := conclude_refused h
  rw [ho] at h
  have hrefused := (deliver_of_too_long hlong).symm.trans h
  exact ⟨(Host.Outcome.refused.inj hrefused).symm, writesOutput_of_packet ho⟩

/-- Settles O41: a next state answers what the operation came to, a fault is what it came to, and the codes of both are
among those allowed; a refusal is a packet that does not fit. -/
theorem operationsGiveOnlyTheirOwnCodes : Obligations.OperationsGiveOnlyTheirOwnCodes := by
  refine fun i s => ⟨fun t h => ?next, fun f h => ?fault, fun q h => exec_refused h⟩
  case next =>
    obtain ⟨a, ha, hr⟩ := exec_next_response h
    exact ⟨responseOf a, hr, responseOf_code_mem_allowedCodes ha⟩
  case fault =>
    rw [exec_eq_conclude] at h
    exact fault_code_mem_allowedCodes (conclude_fault h)

/-! ## What an error response leaves unchanged (R227) -/

/-- Settles O43: a delivered packet answers OK, so an operation whose response is an error kind only answered it. -/
theorem errorsChangeNothingButTheResponse : Obligations.ErrorsChangeNothingButTheResponse := by
  intro i s t e h hr
  obtain ⟨r, rfl, -, -⟩ | ⟨_, _, -, -, -, rfl⟩ := exec_next h
  · cases hr
    exact ⟨rfl, fun _ => rfl⟩
  · cases hr

end Sys2Proof.Machine

/-! SUPPORT. The statements on reset and hazards: what an idle step and a reset leave, and the state after reset. -/

namespace Sys2Proof.Machine

/-! ## Idle steps and resets (R250 to R252) -/

/-- Settles O2: `fetch` finds nothing, and an idle step answers the state it was given. -/
theorem stepWithNothingWaitingChangesNothing : Obligations.StepWithNothingWaitingChangesNothing :=
  fun _ hin => step_idle hin

/-- Settles O3: the reset puts the discarded request's buffer and capacity in place and performs no operation on them. -/
theorem resetDiscardsTheRequestInFlight : Obligations.ResetDiscardsTheRequestInFlight := by
  intro s p rest hin
  refine ⟨takeReset (some p) rest s, step_reset hin, takeReset_response .., takeReset_inputs ..,
    takeReset_some_outCap .., fun a => ?_⟩
  rw [takeReset_some_outBuf]

/-- R250: a reset with no request in flight takes its input and clears the response, and sets no other field. -/
theorem takeReset_none (rest : List Input) (s : State) :
    takeReset none rest s = { s with inputs := rest, response := none } := rfl

/-- Settles O4: by what the reset state lists, and by what a reset with nothing in flight sets. -/
theorem resetLeavesNoResponsePending : Obligations.ResetLeavesNoResponsePending := by
  refine ⟨reset_response, fun s rest hin => ?_⟩
  rw [step_reset hin, takeReset_none]

/-! ## The state after reset -/

/-- An output buffer of which nothing is known is in order under every capacity. -/
theorem bufferOk_nil (cap : Option Nat) : bufferOk cap [] = true := by
  cases cap <;> rfl

/-- Settles O49: no response is pending, no input waits, and nothing of the output buffer is known. -/
theorem resetStateHasTheInvariant : Obligations.ResetStateHasTheInvariant :=
  inv_of_no_response reset_response (bufferOk_nil _) rfl

end Sys2Proof.Machine
